-- ==== Sys2Proof/Word.lean ====
section
/-! DEFINITION. The word types of the core: bytes, 16-bit words and the two narrow instruction fields
(spec/00_scope.md R10, R14, R15; spec/30_encoding.md R81). Every value is unsigned. -/

namespace Sys2Proof

/-- A register value, an immediate or a byte of memory (R10, R15). -/
abbrev Byte := BitVec 8

/-- An instruction word, or the contents of I, PC or a stack slot (R10, R80). -/
abbrev Word := BitVec 16

/-- A 4-bit instruction field: a register index, a sprite height or an opcode family (R81). -/
abbrev Nibble := BitVec 4

/-- A 12-bit address field, nnn (R81). -/
abbrev Addr := BitVec 12

end Sys2Proof
end

