-- ==== Sys2Proof/Config.lean ====
section
/-! DEFINITION. What is fixed for the machine: the implementation parameters of spec/00_scope.md section 3, and the
one free value, the random draw of RND. -/

namespace Sys2Proof

/-- MEM_SIZE, the number of addresses (R6). -/
@[simp] abbrev Config.memSize : Nat := 4096

/-- LOAD_OFFSET, where a program is loaded (R7). -/
@[simp] abbrev Config.loadOffset : Nat := 0x200

/-- FONT_BASE (R8). -/
@[simp] abbrev Config.fontBase : Nat := 0

/-- GLYPH_HEIGHT, bytes per glyph (R8). -/
@[simp] abbrev Config.glyphHeight : Nat := 5

/-- SCREEN_W, columns (R9). -/
@[simp] abbrev Config.screenW : Nat := 64

/-- SCREEN_H, rows (R9). -/
@[simp] abbrev Config.screenH : Nat := 32

/-- NUM_KEYS (R10). -/
@[simp] abbrev Config.numKeys : Nat := 16

/-- STACK_DEPTH, the number of return addresses the stack holds (R11). -/
@[simp] abbrev Config.stackDepth : Nat := 16

/-- ENTRY_PC, the program counter after `initialize` (R24, R260). -/
@[simp] abbrev Config.entryPc : Word := 0x200#16

/-- FREE VALUE (log entry 3): the byte the n-th execution of RND draws, 0 to 254 (R13, R133). It has no body, so
nothing is known of it but its range: no law relates one draw to another. -/
opaque Config.randomDraw : Nat → Fin 255

end Sys2Proof
end

