-- ==== Sys2Proof/Syntax.lean ====
section
/-! DEFINITION. The instructions: one constructor per row of spec/opcode_table.json, with the fields of
spec/30_encoding.md R81 that its pattern names. A field the instruction ignores (nnn of SYS, n of 5xyn and 9xyn, y of
8xy6 and 8xyE, the whole word of NOP) is kept as data, so that no bit of a word is dropped; no meaning reads it. -/

namespace Sys2Proof

inductive Instr where
  /-- 00E0 CLS (R152). -/
  | cls
  /-- 00EE RET (R101). -/
  | ret
  /-- 0nnn SYS nnn, every other word of family 0 (R100). -/
  | sys (nnn : Addr)
  /-- 1nnn JP nnn (R102). -/
  | jp (nnn : Addr)
  /-- 2nnn CALL nnn (R103). -/
  | call (nnn : Addr)
  /-- 3xkk SE Vx, kk (R104). -/
  | seVxKk (x : Nibble) (kk : Byte)
  /-- 4xkk SNE Vx, kk (R105). -/
  | sneVxKk (x : Nibble) (kk : Byte)
  /-- 5xyn SE Vx, Vy; n is ignored (R106, R85). -/
  | seVxVy (x y n : Nibble)
  /-- 6xkk LD Vx, kk (R120). -/
  | ldVxKk (x : Nibble) (kk : Byte)
  /-- 7xkk ADD Vx, kk (R121). -/
  | addVxKk (x : Nibble) (kk : Byte)
  /-- 8xy0 LD Vx, Vy (R124). -/
  | ldVxVy (x y : Nibble)
  /-- 8xy1 OR Vx, Vy (R125). -/
  | orVxVy (x y : Nibble)
  /-- 8xy2 AND Vx, Vy (R126). -/
  | andVxVy (x y : Nibble)
  /-- 8xy3 XOR Vx, Vy (R127). -/
  | xorVxVy (x y : Nibble)
  /-- 8xy4 ADD Vx, Vy (R128). -/
  | addVxVy (x y : Nibble)
  /-- 8xy5 SUB Vx, Vy (R129). -/
  | subVxVy (x y : Nibble)
  /-- 8xy6 SHR Vx; y is ignored (R130, R85). -/
  | shrVx (x y : Nibble)
  /-- 8xy7 SUBN Vx, Vy (R131). -/
  | subnVxVy (x y : Nibble)
  /-- 8xyE SHL Vx; y is ignored (R132, R85). -/
  | shlVx (x y : Nibble)
  /-- 9xyn SNE Vx, Vy; n is ignored (R107, R85). -/
  | sneVxVy (x y n : Nibble)
  /-- Annn LD I, nnn (R190). -/
  | ldINnn (nnn : Addr)
  /-- Bnnn JP V0, nnn (R108). -/
  | jpV0Nnn (nnn : Addr)
  /-- Cxkk RND Vx, kk (R133). -/
  | rndVxKk (x : Nibble) (kk : Byte)
  /-- Dxyn DRW Vx, Vy, n (R153). -/
  | drwVxVyN (x y n : Nibble)
  /-- Ex9E SKP Vx (R170). -/
  | skpVx (x : Nibble)
  /-- ExA1 SKNP Vx (R171). -/
  | sknpVx (x : Nibble)
  /-- Fx07 LD Vx, DT (R191). -/
  | ldVxDt (x : Nibble)
  /-- Fx0A LD Vx, K (R172). -/
  | ldVxK (x : Nibble)
  /-- Fx15 LD DT, Vx (R192). -/
  | ldDtVx (x : Nibble)
  /-- Fx18 LD ST, Vx (R193). -/
  | ldStVx (x : Nibble)
  /-- Fx1E ADD I, Vx (R194). -/
  | addIVx (x : Nibble)
  /-- Fx29 LD F, Vx (R154). -/
  | ldFVx (x : Nibble)
  /-- Fx33 LD B, Vx (R195). -/
  | ldBVx (x : Nibble)
  /-- Fx55 LD [I], Vx (R196). -/
  | ldMemVx (x : Nibble)
  /-- Fx65 LD Vx, [I] (R197). -/
  | ldVxMem (x : Nibble)
  /-- NOP: a word that matches no other row, kept whole (R84). -/
  | nop (w : Word)
deriving DecidableEq, Repr

end Sys2Proof
end

