-- ==== Sys2Proof/WellFormed.lean ====
section
/-! DEFINITION. Which instruction terms a word stands for: every constructor's fields are already of their width, so
only SYS (whose nnn must not be that of CLS or RET: 00E0 and 00EE are tried first) and NOP (whose word must match no
other row) can be ill-formed (spec/30_encoding.md R83, R84). -/

namespace Sys2Proof

/-- The words of families 8, E and F that match no row: the no-op space of R84 outside family 0. -/
def isUnmatchedWord (w : Word) : Bool :=
  let op := w.extractLsb' 12 4
  let n := w.extractLsb' 0 4
  let kk := w.extractLsb' 0 8
  (op == 0x8#4 && (n == 0x8#4 || n == 0x9#4 || n == 0xA#4 || n == 0xB#4 || n == 0xC#4 || n == 0xD#4 || n == 0xF#4))
  || (op == 0xE#4 && !(kk == 0x9E#8 || kk == 0xA1#8))
  || (op == 0xF#4 && !(kk == 0x07#8 || kk == 0x0A#8 || kk == 0x15#8 || kk == 0x18#8 || kk == 0x1E#8 || kk == 0x29#8
        || kk == 0x33#8 || kk == 0x55#8 || kk == 0x65#8))

/-- The instruction is what some word decodes to. -/
def Instr.wf : Instr → Bool
  | .sys nnn => nnn != 0x0E0#12 && nnn != 0x0EE#12
  | .nop w => isUnmatchedWord w
  | .cls | .ret | .jp _ | .call _ | .seVxKk _ _ | .sneVxKk _ _ | .seVxVy _ _ _ | .ldVxKk _ _ | .addVxKk _ _
  | .ldVxVy _ _ | .orVxVy _ _ | .andVxVy _ _ | .xorVxVy _ _ | .addVxVy _ _ | .subVxVy _ _ | .shrVx _ _
  | .subnVxVy _ _ | .shlVx _ _ | .sneVxVy _ _ _ | .ldINnn _ | .jpV0Nnn _ | .rndVxKk _ _ | .drwVxVyN _ _ _
  | .skpVx _ | .sknpVx _ | .ldVxDt _ | .ldVxK _ | .ldDtVx _ | .ldStVx _ | .addIVx _ | .ldFVx _ | .ldBVx _
  | .ldMemVx _ | .ldVxMem _ => true

end Sys2Proof
end

