-- ==== Sys2Proof/Decode.lean ====
section
/-! DEFINITION. The decoder and, after it, the encoder of spec/30_encoding.md: fields (R81), decode (R83), words as
big-endian byte pairs (R63, R80), the opcode map's masks and matches (section 3), the canonical encoding (R89) and the
assembler's spelling (R88). -/

namespace Sys2Proof

/-! ## Fields (R81) -/

/-- op = w[15:12], the opcode family. -/
def opField (w : Word) : Nibble := w.extractLsb' 12 4

/-- x = w[11:8]. -/
def xField (w : Word) : Nibble := w.extractLsb' 8 4

/-- y = w[7:4]. -/
def yField (w : Word) : Nibble := w.extractLsb' 4 4

/-- n = w[3:0]. -/
def nField (w : Word) : Nibble := w.extractLsb' 0 4

/-- kk = w[7:0]. -/
def kkField (w : Word) : Byte := w.extractLsb' 0 8

/-- nnn = w[11:0]. -/
def nnnField (w : Word) : Addr := w.extractLsb' 0 12

/-! ## Decode (R83) -/

/-- Family 0: two whole-word matches, everything else SYS (R83, R100). -/
def decodeFamily0 (w : Word) : Instr :=
  if w = 0x00E0#16 then .cls
  else if w = 0x00EE#16 then .ret
  else .sys (nnnField w)

/-- Family 8: the low nibble selects the operation (R83). -/
def decodeFamily8 (w : Word) : Instr :=
  let x := xField w
  let y := yField w
  let n := nField w
  if n = 0x0#4 then .ldVxVy x y
  else if n = 0x1#4 then .orVxVy x y
  else if n = 0x2#4 then .andVxVy x y
  else if n = 0x3#4 then .xorVxVy x y
  else if n = 0x4#4 then .addVxVy x y
  else if n = 0x5#4 then .subVxVy x y
  else if n = 0x6#4 then .shrVx x y
  else if n = 0x7#4 then .subnVxVy x y
  else if n = 0xE#4 then .shlVx x y
  else .nop w

/-- Family E: the low byte selects the key skip (R83). -/
def decodeFamilyE (w : Word) : Instr :=
  if kkField w = 0x9E#8 then .skpVx (xField w)
  else if kkField w = 0xA1#8 then .sknpVx (xField w)
  else .nop w

/-- Family F: the low byte selects one of the miscellaneous group (R83). -/
def decodeFamilyF (w : Word) : Instr :=
  let x := xField w
  let kk := kkField w
  if kk = 0x07#8 then .ldVxDt x
  else if kk = 0x0A#8 then .ldVxK x
  else if kk = 0x15#8 then .ldDtVx x
  else if kk = 0x18#8 then .ldStVx x
  else if kk = 0x1E#8 then .addIVx x
  else if kk = 0x29#8 then .ldFVx x
  else if kk = 0x33#8 then .ldBVx x
  else if kk = 0x55#8 then .ldMemVx x
  else if kk = 0x65#8 then .ldVxMem x
  else .nop w

/-- The instruction of a 16-bit word: total, since every unmatched word is the no-op (R83, R84). -/
def decode (w : Word) : Instr :=
  let op := opField w
  if op = 0x0#4 then decodeFamily0 w
  else if op = 0x1#4 then .jp (nnnField w)
  else if op = 0x2#4 then .call (nnnField w)
  else if op = 0x3#4 then .seVxKk (xField w) (kkField w)
  else if op = 0x4#4 then .sneVxKk (xField w) (kkField w)
  else if op = 0x5#4 then .seVxVy (xField w) (yField w) (nField w)
  else if op = 0x6#4 then .ldVxKk (xField w) (kkField w)
  else if op = 0x7#4 then .addVxKk (xField w) (kkField w)
  else if op = 0x8#4 then decodeFamily8 w
  else if op = 0x9#4 then .sneVxVy (xField w) (yField w) (nField w)
  else if op = 0xA#4 then .ldINnn (nnnField w)
  else if op = 0xB#4 then .jpV0Nnn (nnnField w)
  else if op = 0xC#4 then .rndVxKk (xField w) (kkField w)
  else if op = 0xD#4 then .drwVxVyN (xField w) (yField w) (nField w)
  else if op = 0xE#4 then decodeFamilyE w
  else decodeFamilyF w

/-- The big-endian word of two bytes: the high byte stands at the lower address (R63). -/
def wordOfBytes (hi lo : Byte) : Word := hi ++ lo

/-- The high byte of a word, stored at the lower address (R63). -/
def highByte (w : Word) : Byte := w.extractLsb' 8 8

/-- The low byte of a word, stored at the higher address (R63). -/
def lowByte (w : Word) : Byte := w.extractLsb' 0 8

/-- Why a byte string holds no instruction. -/
inductive DecodeError where
  /-- Fewer than the two bytes every instruction has (R80). -/
  | tooFewBytes
deriving DecidableEq, Repr

/-- The first instruction of a byte string and the bytes after it (R63, R80). -/
def decodeBytes : List Byte → Except DecodeError (Instr × List Byte)
  | hi :: lo :: rest => .ok (decode (wordOfBytes hi lo), rest)
  | _ => .error .tooFewBytes

/-- The instruction the decoder reads from the bits w of an opcode-table row of nbits bits: one 16-bit word, laid out
big-endian; the bits above nbits are 0. -/
def decodeTableWord (nbits w : Nat) : Option Instr :=
  let word := BitVec.ofNat 16 (w % 2 ^ nbits)
  match decodeBytes [highByte word, lowByte word] with
  | .ok (i, _) => some i
  | .error _ => none

/-! ## Encode -/

/-- Format N: op and a 12-bit address (R81). -/
def wordN (op : Nibble) (nnn : Addr) : Word := op ++ nnn

/-- Format XKK: op, x and a byte (R81). -/
def wordXKK (op x : Nibble) (kk : Byte) : Word := op ++ x ++ kk

/-- Format XYN: op, x, y and n (R81). -/
def wordXYN (op x y n : Nibble) : Word := op ++ x ++ y ++ n

/-- The word of an instruction, from the opcode map of 30_encoding.md section 3, ignored fields included. -/
def encode : Instr → Word
  | .cls => 0x00E0#16
  | .ret => 0x00EE#16
  | .sys nnn => wordN 0x0 nnn
  | .jp nnn => wordN 0x1 nnn
  | .call nnn => wordN 0x2 nnn
  | .seVxKk x kk => wordXKK 0x3 x kk
  | .sneVxKk x kk => wordXKK 0x4 x kk
  | .seVxVy x y n => wordXYN 0x5 x y n
  | .ldVxKk x kk => wordXKK 0x6 x kk
  | .addVxKk x kk => wordXKK 0x7 x kk
  | .ldVxVy x y => wordXYN 0x8 x y 0x0
  | .orVxVy x y => wordXYN 0x8 x y 0x1
  | .andVxVy x y => wordXYN 0x8 x y 0x2
  | .xorVxVy x y => wordXYN 0x8 x y 0x3
  | .addVxVy x y => wordXYN 0x8 x y 0x4
  | .subVxVy x y => wordXYN 0x8 x y 0x5
  | .shrVx x y => wordXYN 0x8 x y 0x6
  | .subnVxVy x y => wordXYN 0x8 x y 0x7
  | .shlVx x y => wordXYN 0x8 x y 0xE
  | .sneVxVy x y n => wordXYN 0x9 x y n
  | .ldINnn nnn => wordN 0xA nnn
  | .jpV0Nnn nnn => wordN 0xB nnn
  | .rndVxKk x kk => wordXKK 0xC x kk
  | .drwVxVyN x y n => wordXYN 0xD x y n
  | .skpVx x => wordXKK 0xE x 0x9E
  | .sknpVx x => wordXKK 0xE x 0xA1
  | .ldVxDt x => wordXKK 0xF x 0x07
  | .ldVxK x => wordXKK 0xF x 0x0A
  | .ldDtVx x => wordXKK 0xF x 0x15
  | .ldStVx x => wordXKK 0xF x 0x18
  | .addIVx x => wordXKK 0xF x 0x1E
  | .ldFVx x => wordXKK 0xF x 0x29
  | .ldBVx x => wordXKK 0xF x 0x33
  | .ldMemVx x => wordXKK 0xF x 0x55
  | .ldVxMem x => wordXKK 0xF x 0x65
  | .nop w => w

/-- The bytes of an instruction as memory holds them (R63). -/
def encodeBytes (i : Instr) : List Byte := [highByte (encode i), lowByte (encode i)]

/-- The same instruction with every ignored field 0: what an assembler emits (R89). NOP has no assembler form. -/
def Instr.canonical : Instr → Instr
  | .seVxVy x y _ => .seVxVy x y 0
  | .sneVxVy x y _ => .sneVxVy x y 0
  | .shrVx x _ => .shrVx x 0
  | .shlVx x _ => .shlVx x 0
  | i => i

/-- The mask of the instruction's row in opcode_table.json. -/
def Instr.rowMask : Instr → Word
  | .cls | .ret => 0xFFFF#16
  | .sys _ | .jp _ | .call _ | .seVxKk _ _ | .sneVxKk _ _ | .seVxVy _ _ _ | .ldVxKk _ _ | .addVxKk _ _
  | .sneVxVy _ _ _ | .ldINnn _ | .jpV0Nnn _ | .rndVxKk _ _ | .drwVxVyN _ _ _ => 0xF000#16
  | .ldVxVy _ _ | .orVxVy _ _ | .andVxVy _ _ | .xorVxVy _ _ | .addVxVy _ _ | .subVxVy _ _ | .shrVx _ _
  | .subnVxVy _ _ | .shlVx _ _ => 0xF00F#16
  | .skpVx _ | .sknpVx _ | .ldVxDt _ | .ldVxK _ | .ldDtVx _ | .ldStVx _ | .addIVx _ | .ldFVx _ | .ldBVx _
  | .ldMemVx _ | .ldVxMem _ => 0xF0FF#16
  | .nop _ => 0x0000#16

/-- The match value of the instruction's row in opcode_table.json. -/
def Instr.rowMatch : Instr → Word
  | .cls => 0x00E0#16
  | .ret => 0x00EE#16
  | .sys _ => 0x0000#16
  | .jp _ => 0x1000#16
  | .call _ => 0x2000#16
  | .seVxKk _ _ => 0x3000#16
  | .sneVxKk _ _ => 0x4000#16
  | .seVxVy _ _ _ => 0x5000#16
  | .ldVxKk _ _ => 0x6000#16
  | .addVxKk _ _ => 0x7000#16
  | .ldVxVy _ _ => 0x8000#16
  | .orVxVy _ _ => 0x8001#16
  | .andVxVy _ _ => 0x8002#16
  | .xorVxVy _ _ => 0x8003#16
  | .addVxVy _ _ => 0x8004#16
  | .subVxVy _ _ => 0x8005#16
  | .shrVx _ _ => 0x8006#16
  | .subnVxVy _ _ => 0x8007#16
  | .shlVx _ _ => 0x800E#16
  | .sneVxVy _ _ _ => 0x9000#16
  | .ldINnn _ => 0xA000#16
  | .jpV0Nnn _ => 0xB000#16
  | .rndVxKk _ _ => 0xC000#16
  | .drwVxVyN _ _ _ => 0xD000#16
  | .skpVx _ => 0xE09E#16
  | .sknpVx _ => 0xE0A1#16
  | .ldVxDt _ => 0xF007#16
  | .ldVxK _ => 0xF00A#16
  | .ldDtVx _ => 0xF015#16
  | .ldStVx _ => 0xF018#16
  | .addIVx _ => 0xF01E#16
  | .ldFVx _ => 0xF029#16
  | .ldBVx _ => 0xF033#16
  | .ldMemVx _ => 0xF055#16
  | .ldVxMem _ => 0xF065#16
  | .nop _ => 0x0000#16

/-! ## Assembler spelling (R88) -/

/-- A number in hex with the prefix 0x. -/
def hexText (k : Nat) : String := "0x" ++ String.ofList ((Nat.toDigits 16 k).map Char.toUpper)

/-- V0 to VF. -/
def registerText (x : Nibble) : String := "V" ++ String.ofList ((Nat.toDigits 16 x.toNat).map Char.toUpper)

/-- The assembler form of an instruction (R88); a NOP word has none. -/
def assemblyText : Instr → Option String
  | .cls => some "CLS"
  | .ret => some "RET"
  | .sys nnn => some ("SYS " ++ hexText nnn.toNat)
  | .jp nnn => some ("JP " ++ hexText nnn.toNat)
  | .call nnn => some ("CALL " ++ hexText nnn.toNat)
  | .seVxKk x kk => some ("SE " ++ registerText x ++ ", " ++ hexText kk.toNat)
  | .sneVxKk x kk => some ("SNE " ++ registerText x ++ ", " ++ hexText kk.toNat)
  | .seVxVy x y _ => some ("SE " ++ registerText x ++ ", " ++ registerText y)
  | .ldVxKk x kk => some ("LD " ++ registerText x ++ ", " ++ hexText kk.toNat)
  | .addVxKk x kk => some ("ADD " ++ registerText x ++ ", " ++ hexText kk.toNat)
  | .ldVxVy x y => some ("LD " ++ registerText x ++ ", " ++ registerText y)
  | .orVxVy x y => some ("OR " ++ registerText x ++ ", " ++ registerText y)
  | .andVxVy x y => some ("AND " ++ registerText x ++ ", " ++ registerText y)
  | .xorVxVy x y => some ("XOR " ++ registerText x ++ ", " ++ registerText y)
  | .addVxVy x y => some ("ADD " ++ registerText x ++ ", " ++ registerText y)
  | .subVxVy x y => some ("SUB " ++ registerText x ++ ", " ++ registerText y)
  | .shrVx x _ => some ("SHR " ++ registerText x)
  | .subnVxVy x y => some ("SUBN " ++ registerText x ++ ", " ++ registerText y)
  | .shlVx x _ => some ("SHL " ++ registerText x)
  | .sneVxVy x y _ => some ("SNE " ++ registerText x ++ ", " ++ registerText y)
  | .ldINnn nnn => some ("LD I, " ++ hexText nnn.toNat)
  | .jpV0Nnn nnn => some ("JP V0, " ++ hexText nnn.toNat)
  | .rndVxKk x kk => some ("RND " ++ registerText x ++ ", " ++ hexText kk.toNat)
  | .drwVxVyN x y n => some ("DRW " ++ registerText x ++ ", " ++ registerText y ++ ", " ++ hexText n.toNat)
  | .skpVx x => some ("SKP " ++ registerText x)
  | .sknpVx x => some ("SKNP " ++ registerText x)
  | .ldVxDt x => some ("LD " ++ registerText x ++ ", DT")
  | .ldVxK x => some ("LD " ++ registerText x ++ ", K")
  | .ldDtVx x => some ("LD DT, " ++ registerText x)
  | .ldStVx x => some ("LD ST, " ++ registerText x)
  | .addIVx x => some ("ADD I, " ++ registerText x)
  | .ldFVx x => some ("LD F, " ++ registerText x)
  | .ldBVx x => some ("LD B, " ++ registerText x)
  | .ldMemVx x => some ("LD [I], " ++ registerText x)
  | .ldVxMem x => some ("LD " ++ registerText x ++ ", [I]")
  | .nop _ => none

end Sys2Proof
end

