-- ==== Sys2Proof/Machine/State.lean ====
section
/-! DEFINITION. The state of the core (spec/10_state.md), the fault record (R34, R222), the reasons a step can stop, and
the state after `initialize` (spec/70_reset_and_hazards.md R260). -/

namespace Sys2Proof.Machine

/-- Memory: the bytes that differ from the reset image, addresses strictly rising (log entry 5). -/
abbrev Memory := List Host.Cell

/-- The framebuffer, 32 rows of 64 pixels (R32). -/
abbrev Screen := Vector (Vector Bool 64) 32

/-- The host-key mapping table: host key identifier and virtual key code; the first entry of a host key counts
(R12, R36; log entry 4). -/
abbrev KeyMap := List (Nat × Nibble)

/-- The fault kinds of 60_exceptions.md R221. A kind stands in the fault record of the transition that raised it, and a
`step` of a machine that has faulted answers it as its outcome: the machine is halted (R220, R224; log entries 1, 2).
All five are safe: the machine stops where the spec says it does. -/
inductive Fault where
  /-- Code 1: an access at address 4096 or above; raised by fetch, DRW, LD B, LD [I] and LD Vx, [I]. Safe. -/
  | memRange
  /-- Code 2: Push with a full stack; raised by CALL. Safe. -/
  | stackOverflow
  /-- Code 3: Pop with an empty stack; raised by RET. Safe. -/
  | stackUnderflow
  /-- Code 4: a key index above 15; raised by SKP and SKNP. Safe. -/
  | keyRange
  /-- Code 5: a host port coordinate outside 64 x 32; raised by is_set, set_on and set_off. Safe. -/
  | screenBounds
deriving DecidableEq, Repr

/-- Why an operation makes no transition. -/
inductive Refusal where
  /-- An instruction without a meaning, by its mnemonic; no arm of exec answers it. Safe. -/
  | notModelled (mnemonic : String)
  /-- `step` or `execute` while the core waits for a key: not enabled (R86, R87, R174). Safe. -/
  | waitingForKey
  /-- `execute`, or `is_set` out of range, on a machine that has faulted: refused (R87, R224). Safe. -/
  | haltedByFault
  /-- `key_down` or `key_up` with a code above 15: refused, no transition (R234). Safe. -/
  | keyCodeOutOfRange
  /-- CALL or RET with SP above 16, outside its legal range (R38): no machine is in such a state (log entry 6). Safe. -/
  | stackPointerOutOfRange
deriving DecidableEq, Repr

/-- What a fault records beside its kind (R34, R221). -/
inductive FaultInfo where
  | nothing
  /-- MEM_RANGE: the lowest out-of-range address. -/
  | address (a : Nat)
  /-- KEY_RANGE: the value of V[x]. -/
  | key (v : Byte)
  /-- SCREEN_BOUNDS: the coordinate. -/
  | coordinate (x y : Nat)
deriving DecidableEq, Repr

/-- The fault record (R34, R222). -/
structure FaultRecord where
  kind : Fault
  pc   : Option Word
  word : Option Word
  info : FaultInfo
deriving DecidableEq, Repr

/-- Everything the spec gives the machine (10_state.md), and `draws`. -/
structure State where
  /-- V0 to VF (R20). -/
  v      : Vector Byte 16
  /-- The address register I (R23). -/
  i      : Word
  /-- The program counter (R24). -/
  pc     : Word
  /-- The stack pointer: the number of return addresses on the stack (R25). -/
  sp     : Byte
  /-- The stack: slot j of the spec, 1 to 16, stands at index j - 1 (R26). -/
  stack  : Vector Word 16
  /-- The delay timer (R29). -/
  dt     : Byte
  /-- The sound timer (R30). -/
  st     : Byte
  /-- The 4096 bytes of memory (R31). -/
  mem    : Memory
  /-- The framebuffer (R32). -/
  fb     : Screen
  /-- The key vector (R33). -/
  keys   : Vector Bool 16
  /-- The fault record (R34). -/
  fault  : Option FaultRecord
  /-- The key-wait state (R35). -/
  wait   : Option Nibble
  /-- The host-key mapping table (R36). -/
  keymap : KeyMap
  /-- The model's own: how many RND draws have been taken (log entry 3). -/
  draws  : Nat
deriving DecidableEq, Repr

/-- The machine after `initialize` (R260), no key mapping installed (log entry 4) and no draw taken (log entry 3).
No byte differs from the reset image, so memory lists nothing. -/
def State.reset : State where
  v      := Vector.replicate 16 0#8
  i      := 0#16
  pc     := Config.entryPc
  sp     := 0#8
  stack  := Vector.replicate 16 0#16
  dt     := 0#8
  st     := 0#8
  mem    := []
  fb     := Vector.replicate 32 (Vector.replicate 64 false)
  keys   := Vector.replicate 16 false
  fault  := none
  wait   := none
  keymap := []
  draws  := 0

end Sys2Proof.Machine
end

