-- ==== Sys2Proof/Machine/Memory.lean ====
section
/-! DEFINITION. Memory: the reset image and font (spec/70_reset_and_hazards.md R260, R261), and reading and writing
bytes of the list that holds what differs from it (spec/20_memory.md R61, R62). The range check stands in Ops.lean. -/

namespace Sys2Proof.Machine

/-- FONT, 16 glyphs of 5 bytes (R261). -/
def fontImage : List Byte :=
  [0xF0, 0x90, 0x90, 0x90, 0xF0,  -- 0
   0x20, 0x60, 0x20, 0x20, 0x70,  -- 1
   0xF0, 0x10, 0xF0, 0x80, 0xF0,  -- 2
   0xF0, 0x10, 0xF0, 0x10, 0xF0,  -- 3
   0x90, 0x90, 0xF0, 0x10, 0x10,  -- 4
   0xF0, 0x80, 0xF0, 0x10, 0xF0,  -- 5
   0xF0, 0x80, 0xF0, 0x90, 0xF0,  -- 6
   0xF0, 0x10, 0x20, 0x40, 0x40]  -- 7
  ++
  [0xF0, 0x90, 0xF0, 0x90, 0xF0,  -- 8
   0xF0, 0x90, 0xF0, 0x10, 0xF0,  -- 9
   0xF0, 0x90, 0xF0, 0x90, 0x90,  -- A
   0xE0, 0x90, 0xE0, 0x90, 0xE0,  -- B
   0xF0, 0x80, 0x80, 0x80, 0xF0,  -- C
   0xE0, 0x90, 0x90, 0x90, 0xE0,  -- D
   0xF0, 0x80, 0xF0, 0x80, 0xF0,  -- E
   0xF0, 0x80, 0xF0, 0x80, 0x80]  -- F

/-- What an unlisted address reads as: the font from FONT_BASE = 0, zero above it (R31, R260). -/
def resetByte (a : Nat) : Byte := fontImage.getD a 0#8

/-- The listed byte of an address, if there is one. -/
def Memory.find (a : Nat) : Memory → Option Byte
  | [] => none
  | (b, w) :: m => if a = b then some w else Memory.find a m

/-- The byte at an address (R61, in range). -/
def Memory.read (m : Memory) (a : Nat) : Byte := (Memory.find a m).getD (resetByte a)

/-- The listing with an entry for a, in the place its address has. -/
def Memory.insert (a : Nat) (v : Byte) : Memory → Memory
  | [] => [(a, v)]
  | (b, w) :: m =>
    if a < b then (a, v) :: (b, w) :: m
    else if a = b then (a, v) :: m
    else (b, w) :: Memory.insert a v m

/-- The listing with no entry for a. -/
def Memory.erase (a : Nat) (m : Memory) : Memory := m.filter (fun c => c.1 != a)

/-- One byte stored (R62, in range). A byte equal to the reset image is not listed. -/
def Memory.write (m : Memory) (a : Nat) (v : Byte) : Memory :=
  if v = resetByte a then Memory.erase a m else Memory.insert a v m

/-- n bytes from a upwards (R64). -/
def Memory.readBytes (m : Memory) (a : Nat) : Nat → List Byte
  | 0 => []
  | n + 1 => Memory.read m a :: Memory.readBytes m (a + 1) n

/-- Bytes stored from a upwards, lowest first (R64). -/
def Memory.writeBytes (m : Memory) (a : Nat) : List Byte → Memory
  | [] => m
  | b :: bs => Memory.writeBytes (Memory.write m a b) (a + 1) bs

/-- The canonical form: addresses strictly rising and in the address space, no byte equal to the reset image. -/
def Memory.wf : Memory → Bool
  | [] => true
  | (a, v) :: m => decide (a < Config.memSize) && v != resetByte a && m.all (fun c => decide (a < c.1)) && Memory.wf m

end Sys2Proof.Machine
end

