-- ==== Sys2Proof/Machine/Screen.lean ====
section
/-! DEFINITION. The framebuffer primitives: pixels, `clear` and `draw_sprite` with its wrap and its collision
(spec/42_display.md R150, R151). -/

namespace Sys2Proof.Machine

/-- FB[x][y] (R32). -/
def Screen.pixel (fb : Screen) (x : Fin 64) (y : Fin 32) : Bool := (fb.get y).get x

/-- FB[x][y] <- on. -/
def Screen.setPixel (fb : Screen) (x : Fin 64) (y : Fin 32) (on : Bool) : Screen := fb.set y ((fb.get y).set x on)

/-- clear(): every pixel off (R150). -/
def Screen.blank : Screen := Vector.replicate 32 (Vector.replicate 64 false)

/-- A column reduced modulo the width (R151). -/
def wrapX (x : Nat) : Fin 64 := ⟨x % 64, Nat.mod_lt x (by decide)⟩

/-- A row reduced modulo the height (R151). -/
def wrapY (y : Nat) : Fin 32 := ⟨y % 32, Nat.mod_lt y (by decide)⟩

/-- What draw_sprite builds up: the framebuffer and whether a pixel already on has been met. -/
structure Drawing where
  fb  : Screen
  hit : Bool
deriving DecidableEq, Repr

/-- One bit of a sprite: a 1 records a collision and toggles its pixel, a 0 touches nothing (R151). -/
def drawBit (d : Drawing) (x y : Nat) (on : Bool) : Drawing :=
  if on then
    let p := d.fb.pixel (wrapX x) (wrapY y)
    ⟨d.fb.setPixel (wrapX x) (wrapY y) (!p), d.hit || p⟩
  else d

/-- One row of a sprite, most significant bit first: bit 7 - c is column c (R151). -/
def drawRow (d : Drawing) (x0 y : Nat) (row : Byte) : Drawing :=
  (List.range 8).foldl (fun d c => drawBit d (x0 + c) y (row.getLsbD (7 - c))) d

/-- The rows of a sprite, in order, downwards from y (R151). -/
def drawRows (d : Drawing) (x0 y : Nat) : List Byte → Drawing
  | [] => d
  | row :: rows => drawRows (drawRow d x0 y row) x0 (y + 1) rows

/-- draw_sprite(x0, y0, rows, h), h the number of rows (R151). -/
def drawSprite (fb : Screen) (x0 y0 : Nat) (rows : List Byte) : Drawing := drawRows ⟨fb, false⟩ x0 y0 rows

end Sys2Proof.Machine
end

