-- ==== Sys2Proof/Machine/Ops.lean ====
section
/-! DEFINITION. The named operations over the state: one setter per field, register access, raising a fault
(spec/00_scope.md R17, spec/60_exceptions.md R220 to R223), checked memory access (spec/20_memory.md R61 to R63, R67)
and the stack primitives (spec/10_state.md R27, R28). The core has no trap handler, so a fault is never returned from
(R220); only `initialize` clears the record. -/

namespace Sys2Proof.Machine

/-! ## Fields -/

/-- V[x] (R16, R20). -/
def State.getV (s : State) (x : Nibble) : Byte := s.v[x.toNat]'x.isLt

/-- V[x] <- b (R16, R20). -/
def State.setV (s : State) (x : Nibble) (b : Byte) : State := { s with v := s.v.set x.toNat b x.isLt }

/-- All sixteen registers at once. -/
def State.setRegs (s : State) (v : Vector Byte 16) : State := { s with v := v }

/-- I <- a (R23). -/
def State.setI (s : State) (a : Word) : State := { s with i := a }

/-- PC <- a (R24). -/
def State.setPc (s : State) (a : Word) : State := { s with pc := a }

/-- SP and the stack slots (R25, R26). -/
def State.setStack (s : State) (sp : Byte) (stack : Vector Word 16) : State := { s with sp := sp, stack := stack }

/-- DT <- b (R29). -/
def State.setDt (s : State) (b : Byte) : State := { s with dt := b }

/-- ST <- b (R30). -/
def State.setSt (s : State) (b : Byte) : State := { s with st := b }

/-- The memory (R31). -/
def State.setMem (s : State) (m : Memory) : State := { s with mem := m }

/-- The framebuffer (R32). -/
def State.setFb (s : State) (fb : Screen) : State := { s with fb := fb }

/-- Key[k] <- down (R33). -/
def State.setKey (s : State) (k : Nibble) (down : Bool) : State := { s with keys := s.keys.set k.toNat down k.isLt }

/-- Key[k] (R33). -/
def State.getKey (s : State) (k : Nibble) : Bool := s.keys[k.toNat]'k.isLt

/-- The fault record (R34). -/
def State.setFault (s : State) (r : Option FaultRecord) : State := { s with fault := r }

/-- The key-wait state (R35). -/
def State.setWait (s : State) (w : Option Nibble) : State := { s with wait := w }

/-- KEYMAP (R36). -/
def State.setKeymap (s : State) (t : KeyMap) : State := { s with keymap := t }

/-- The model's count of draws (log entry 3). -/
def State.setDraws (s : State) (n : Nat) : State := { s with draws := n }

/-- Stack[j] for j in 1..16 (R26). -/
def State.stackSlot (s : State) (j : Nat) : Word := (s.stack[j - 1]?).getD 0#16

/-- skip: PC <- trunc16(PC + 2) (R18). -/
def skip (s : State) : State := s.setPc (s.pc + 2#16)

/-- skip when the condition holds (R104 to R107, R170, R171). -/
def skipIf (c : Bool) (s : State) : State := if c then skip s else s

/-! ## Raising a fault -/

/-- The code of a fault kind (R221). -/
def Fault.code : Fault → Nat
  | .memRange => 1
  | .stackOverflow => 2
  | .stackUnderflow => 3
  | .keyRange => 4
  | .screenBounds => 5

/-- What a check or an access answers: a value, a fault to raise, or no transition at all. -/
inductive Access (α : Type) where
  | ok (a : α)
  | raised (kind : Fault) (info : FaultInfo)
  | refused (r : Refusal)
deriving DecidableEq, Repr

/-- A value computed from the value an access answers. -/
def Access.map {α β : Type} (f : α → β) : Access α → Access β
  | .ok a => .ok (f a)
  | .raised kind info => .raised kind info
  | .refused r => .refused r

/-- raise Fault(kind, info): nothing changes but the record (R17, R220, R222). -/
def raise (s : State) (kind : Fault) (pc word : Option Word) (info : FaultInfo) : State :=
  s.setFault (some { kind := kind, pc := pc, word := word, info := info })

/-- An instruction with one check before its writes (R17): the effect when the check answers a value, the fault with PC
and the instruction's word when it raises (R87, R222). -/
def attempt {α : Type} (s : State) (word : Word) (a : Access α) (effect : α → State) :
    Host.Outcome State Fault Refusal :=
  match a with
  | .ok v => .next (effect v)
  | .raised kind info => .next (raise s kind (some s.pc) (some word) info)
  | .refused r => .refused r

/-! ## Checked memory access -/

/-- The check of len byte accesses from base upwards, on unbounded integers (R61, R62, R67); the recorded address is
the lowest one out of range (R223). -/
def rangeCheck (base len : Nat) : Access Unit :=
  if len = 0 ∨ base + len ≤ Config.memSize then .ok ()
  else .raised .memRange (.address (max base Config.memSize))

/-- len bytes read from base upwards, after the check; MemRead(a, 1) is len = 1 (R61, R64). -/
def readRange (m : Memory) (base len : Nat) : Access (List Byte) :=
  (rangeCheck base len).map fun _ => Memory.readBytes m base len

/-- Bytes written from base upwards, after the check; MemWrite(a, 1, v) is one byte (R62, R64). -/
def writeRange (m : Memory) (base : Nat) (bytes : List Byte) : Access Memory :=
  (rangeCheck base bytes.length).map fun _ => Memory.writeBytes m base bytes

/-! ## Stack -/

/-- Push(v) (R27): the state after it. -/
def push (s : State) (v : Word) : Access State :=
  if s.sp.toNat = Config.stackDepth then .raised .stackOverflow .nothing
  else if Config.stackDepth < s.sp.toNat then .refused .stackPointerOutOfRange
  else .ok (s.setStack (s.sp + 1#8) (s.stack.setIfInBounds s.sp.toNat v))

/-- Pop() (R28): the popped value and the state after it. -/
def pop (s : State) : Access (Word × State) :=
  if s.sp.toNat = 0 then .raised .stackUnderflow .nothing
  else if Config.stackDepth < s.sp.toNat then .refused .stackPointerOutOfRange
  else .ok (s.stackSlot s.sp.toNat, s.setStack (s.sp - 1#8) s.stack)

end Sys2Proof.Machine
end

