-- ==== Sys2Proof/Machine/Operands.lean ====
section
/-! DEFINITION. Operand forms: zero-extended immediates (spec/30_encoding.md R82), the jump with offset (R108), the key
index (R170), the glyph address (R154), decimal digits (R195), the register block of the block transfers (R196, R197)
and the drawn random byte (R133). -/

namespace Sys2Proof.Machine

/-- zext_16(nnn) (R82). -/
def addrWord (nnn : Addr) : Word := nnn.setWidth 16

/-- zext_16 of a byte. -/
def byteWord (b : Byte) : Word := b.setWidth 16

/-- The target of JP V0, nnn: trunc16(zext_16(nnn) + V[0]) (R108). -/
def offsetTarget (nnn : Addr) (v0 : Byte) : Word := addrWord nnn + byteWord v0

/-- The key a register names; a value above 15 raises KEY_RANGE (R170, R171). -/
def keyIndex (b : Byte) : Access Nibble :=
  if 15 < b.toNat then .raised .keyRange (.key b) else .ok (b.setWidth 4)

/-- FONT_BASE + V[x] × GLYPH_HEIGHT, not reduced (R154). -/
def glyphAddress (b : Byte) : Word := BitVec.ofNat 16 (Config.fontBase + b.toNat * Config.glyphHeight)

/-- Hundreds, tens and units (R195). -/
def decimalDigits (b : Byte) : List Byte :=
  [BitVec.ofNat 8 (b.toNat / 100), BitVec.ofNat 8 (b.toNat / 10 % 10), BitVec.ofNat 8 (b.toNat % 10)]

/-- V[0] .. V[x], in order (R196). -/
def firstRegs (s : State) (x : Nibble) : List Byte := s.v.toList.take (x.toNat + 1)

/-- The registers from index j on replaced by bytes, lowest first (R197). -/
def loadRegs (v : Vector Byte 16) (j : Nat) : List Byte → Vector Byte 16
  | [] => v
  | b :: bs => loadRegs (v.setIfInBounds j b) (j + 1) bs

/-- The byte the n-th draw gives, 0 to 254: a free value (R13; log entry 3). -/
def drawnByte (n : Nat) : Byte := BitVec.ofNat 8 (Config.randomDraw n).val

end Sys2Proof.Machine
end

