-- ==== Sys2Proof/Machine/ControlFlow.lean ====
section
/-! DEFINITION. The control-flow instructions (spec/40_control_flow.md) and the no-op space (spec/30_encoding.md R84).
PC already holds the address of the instruction plus 2 (R86). -/

namespace Sys2Proof.Machine

/-- SYS nnn: no effect (R100). -/
def execSys (s : State) : Host.Outcome State Fault Refusal := .next s

/-- NOP: no effect (R84). -/
def execNop (s : State) : Host.Outcome State Fault Refusal := .next s

/-- RET (R101). -/
def execRet (s : State) : Host.Outcome State Fault Refusal :=
  attempt s (encode .ret) (pop s) fun p => p.2.setPc p.1

/-- JP nnn (R102). -/
def execJp (nnn : Addr) (s : State) : Host.Outcome State Fault Refusal := .next (s.setPc (addrWord nnn))

/-- CALL nnn: pushes PC, the address of the next instruction (R103). -/
def execCall (nnn : Addr) (s : State) : Host.Outcome State Fault Refusal :=
  attempt s (encode (.call nnn)) (push s s.pc) fun t => t.setPc (addrWord nnn)

/-- SE Vx, kk (R104). -/
def execSeVxKk (x : Nibble) (kk : Byte) (s : State) : Host.Outcome State Fault Refusal :=
  .next (skipIf (s.getV x == kk) s)

/-- SNE Vx, kk (R105). -/
def execSneVxKk (x : Nibble) (kk : Byte) (s : State) : Host.Outcome State Fault Refusal :=
  .next (skipIf (s.getV x != kk) s)

/-- SE Vx, Vy (R106). -/
def execSeVxVy (x y : Nibble) (s : State) : Host.Outcome State Fault Refusal :=
  .next (skipIf (s.getV x == s.getV y) s)

/-- SNE Vx, Vy (R107). -/
def execSneVxVy (x y : Nibble) (s : State) : Host.Outcome State Fault Refusal :=
  .next (skipIf (s.getV x != s.getV y) s)

/-- JP V0, nnn (R108). -/
def execJpV0Nnn (nnn : Addr) (s : State) : Host.Outcome State Fault Refusal :=
  .next (s.setPc (offsetTarget nnn (s.getV 0)))

end Sys2Proof.Machine
end

