-- ==== Sys2Proof/Machine/Flags.lean ====
section
/-! DEFINITION. The flag outputs written to VF (spec/10_state.md R21, R22). -/

namespace Sys2Proof.Machine

/-- VF = V[15] (R21). -/
def vf : Nibble := 0xF#4

/-- ADD's carry: 1 when the wide sum exceeds 255 (R128). -/
def carryFlag (a b : Byte) : Byte := if 255 < a.toNat + b.toNat then 1#8 else 0#8

/-- SUB's and SUBN's flag: 1 when a > b, strictly (R129, R131). -/
def greaterFlag (a b : Byte) : Byte := if b.toNat < a.toNat then 1#8 else 0#8

/-- SHR's flag: bit 0 (R130). -/
def lowBitFlag (a : Byte) : Byte := a &&& 0x01#8

/-- SHL's flag: bit 7 left in place, 0 or 0x80 (R132). -/
def highBitFlag (a : Byte) : Byte := a &&& 0x80#8

/-- DRW's collision flag (R153). -/
def collisionFlag (hit : Bool) : Byte := if hit then 1#8 else 0#8

end Sys2Proof.Machine
end

