-- ==== Sys2Proof/Machine/Display.lean ====
section
/-! DEFINITION. The display instructions (spec/42_display.md). -/

namespace Sys2Proof.Machine

/-- CLS (R152). -/
def execCls (s : State) : Host.Outcome State Fault Refusal := .next (s.setFb Screen.blank)

/-- The effect of DRW once its rows are read: draw at (V[x], V[y]), then VF gets the collision (R153). -/
def drawAt (s : State) (x y : Nibble) (rows : List Byte) : State :=
  let d := drawSprite s.fb (s.getV x).toNat (s.getV y).toNat rows
  (s.setFb d.fb).setV vf (collisionFlag d.hit)

/-- DRW Vx, Vy, n (R153). -/
def execDrwVxVyN (x y n : Nibble) (s : State) : Host.Outcome State Fault Refusal :=
  attempt s (encode (.drwVxVyN x y n)) (readRange s.mem s.i.toNat n.toNat) (drawAt s x y)

/-- LD F, Vx (R154). -/
def execLdFVx (x : Nibble) (s : State) : Host.Outcome State Fault Refusal := .next (s.setI (glyphAddress (s.getV x)))

end Sys2Proof.Machine
end

