-- ==== Sys2Proof/Machine/Keyboard.lean ====
section
/-! DEFINITION. The keyboard instructions (spec/43_keyboard.md). The completion of the key wait is a host event and
stands in Ports.lean (R173). -/

namespace Sys2Proof.Machine

/-- SKP Vx (R170). -/
def execSkpVx (x : Nibble) (s : State) : Host.Outcome State Fault Refusal :=
  attempt s (encode (.skpVx x)) (keyIndex (s.getV x)) fun k => skipIf (s.getKey k) s

/-- SKNP Vx (R171). -/
def execSknpVx (x : Nibble) (s : State) : Host.Outcome State Fault Refusal :=
  attempt s (encode (.sknpVx x)) (keyIndex (s.getV x)) fun k => skipIf (!s.getKey k) s

/-- LD Vx, K: the core is suspended with register x as the destination (R172). -/
def execLdVxK (x : Nibble) (s : State) : Host.Outcome State Fault Refusal := .next (s.setWait (some x))

end Sys2Proof.Machine
end

