-- ==== Sys2Proof/Machine/LoadAlu.lean ====
section
/-! DEFINITION. Register loads, arithmetic, logic, shifts and random (spec/41_load_alu.md). Sums and differences wrap
modulo 256 (R122). -/

namespace Sys2Proof.Machine

/-- The order of SUB, SHR, SUBN and SHL: VF gets its flag first, and V[x] is then computed from the registers as they
stand after that write (R123). -/
def flagThenResult (s : State) (x : Nibble) (flag : Byte) (result : State → Byte) : State :=
  let t := s.setV vf flag
  t.setV x (result t)

/-- LD Vx, kk (R120). -/
def execLdVxKk (x : Nibble) (kk : Byte) (s : State) : Host.Outcome State Fault Refusal := .next (s.setV x kk)

/-- ADD Vx, kk: no carry (R121). -/
def execAddVxKk (x : Nibble) (kk : Byte) (s : State) : Host.Outcome State Fault Refusal :=
  .next (s.setV x (s.getV x + kk))

/-- LD Vx, Vy (R124). -/
def execLdVxVy (x y : Nibble) (s : State) : Host.Outcome State Fault Refusal := .next (s.setV x (s.getV y))

/-- OR Vx, Vy (R125). -/
def execOrVxVy (x y : Nibble) (s : State) : Host.Outcome State Fault Refusal :=
  .next (s.setV x (s.getV x ||| s.getV y))

/-- AND Vx, Vy (R126). -/
def execAndVxVy (x y : Nibble) (s : State) : Host.Outcome State Fault Refusal :=
  .next (s.setV x (s.getV x &&& s.getV y))

/-- XOR Vx, Vy (R127). -/
def execXorVxVy (x y : Nibble) (s : State) : Host.Outcome State Fault Refusal :=
  .next (s.setV x (s.getV x ^^^ s.getV y))

/-- ADD Vx, Vy: the sum first, then VF gets the carry, then V[x] the low 8 bits (R123, R128). -/
def execAddVxVy (x y : Nibble) (s : State) : Host.Outcome State Fault Refusal :=
  let a := s.getV x
  let b := s.getV y
  .next ((s.setV vf (carryFlag a b)).setV x (a + b))

/-- SUB Vx, Vy (R129). -/
def execSubVxVy (x y : Nibble) (s : State) : Host.Outcome State Fault Refusal :=
  .next (flagThenResult s x (greaterFlag (s.getV x) (s.getV y)) fun t => t.getV x - t.getV y)

/-- SHR Vx (R130). -/
def execShrVx (x : Nibble) (s : State) : Host.Outcome State Fault Refusal :=
  .next (flagThenResult s x (lowBitFlag (s.getV x)) fun t => t.getV x >>> 1)

/-- SUBN Vx, Vy (R131). -/
def execSubnVxVy (x y : Nibble) (s : State) : Host.Outcome State Fault Refusal :=
  .next (flagThenResult s x (greaterFlag (s.getV y) (s.getV x)) fun t => t.getV y - t.getV x)

/-- SHL Vx (R132). -/
def execShlVx (x : Nibble) (s : State) : Host.Outcome State Fault Refusal :=
  .next (flagThenResult s x (highBitFlag (s.getV x)) fun t => t.getV x <<< 1)

/-- RND Vx, kk: a fresh draw, masked (R133). -/
def execRndVxKk (x : Nibble) (kk : Byte) (s : State) : Host.Outcome State Fault Refusal :=
  .next ((s.setV x (drawnByte s.draws &&& kk)).setDraws (s.draws + 1))

end Sys2Proof.Machine
end

