-- ==== Sys2Proof/Machine/TimersMemory.lean ====
section
/-! DEFINITION. Address-register, timer, BCD and block-transfer instructions (spec/44_timers_memory.md). No access
changes I. -/

namespace Sys2Proof.Machine

/-- LD I, nnn (R190). -/
def execLdINnn (nnn : Addr) (s : State) : Host.Outcome State Fault Refusal := .next (s.setI (addrWord nnn))

/-- LD Vx, DT (R191). -/
def execLdVxDt (x : Nibble) (s : State) : Host.Outcome State Fault Refusal := .next (s.setV x s.dt)

/-- LD DT, Vx (R192). -/
def execLdDtVx (x : Nibble) (s : State) : Host.Outcome State Fault Refusal := .next (s.setDt (s.getV x))

/-- LD ST, Vx (R193). -/
def execLdStVx (x : Nibble) (s : State) : Host.Outcome State Fault Refusal := .next (s.setSt (s.getV x))

/-- ADD I, Vx: wraps modulo 2^16, no flag (R194). -/
def execAddIVx (x : Nibble) (s : State) : Host.Outcome State Fault Refusal :=
  .next (s.setI (s.i + byteWord (s.getV x)))

/-- LD B, Vx (R195). -/
def execLdBVx (x : Nibble) (s : State) : Host.Outcome State Fault Refusal :=
  attempt s (encode (.ldBVx x)) (writeRange s.mem s.i.toNat (decimalDigits (s.getV x))) s.setMem

/-- LD [I], Vx (R196). -/
def execLdMemVx (x : Nibble) (s : State) : Host.Outcome State Fault Refusal :=
  attempt s (encode (.ldMemVx x)) (writeRange s.mem s.i.toNat (firstRegs s x)) s.setMem

/-- LD Vx, [I] (R197). -/
def execLdVxMem (x : Nibble) (s : State) : Host.Outcome State Fault Refusal :=
  attempt s (encode (.ldVxMem x)) (readRange s.mem s.i.toNat (x.toNat + 1)) fun bytes =>
    s.setRegs (loadRegs s.v 0 bytes)

end Sys2Proof.Machine
end

