-- ==== Sys2Proof/Machine/Fetch.lean ====
section
/-! DEFINITION. The step around exec: enabling, fetch, the advance of PC, and what a raise leaves (spec/30_encoding.md
R86, R87); and placing an instruction where the next step fetches. -/

namespace Sys2Proof.Machine

/-- MemRead(a, 2): high byte at a, low byte at a + 1 (R63). -/
def readWord (m : Memory) (a : Nat) : Word := wordOfBytes (Memory.read m a) (Memory.read m (a + 1))

/-- The fetch at PC, checked (R63, R86). -/
def fetch (s : State) : Access Word := (rangeCheck s.pc.toNat 2).map fun _ => readWord s.mem s.pc.toNat

/-- PC <- trunc16(pc0 + 2) (R86). -/
def advance (s : State) : State := s.setPc (s.pc + 2#16)

/-- The outcome of a step from s whose instruction answered o: if it raised, nothing of s changes but the record,
whose pc is the address the word was fetched from (R17, R86). -/
def settle (s : State) (o : Host.Outcome State Fault Refusal) : Host.Outcome State Fault Refusal :=
  match o with
  | .next t =>
    match t.fault with
    | none => .next t
    | some r => .next (s.setFault (some { r with pc := some s.pc }))
  | .fault r => .fault r
  | .refused r => .refused r

/-- Fetch, advance, execute; a fetch out of range raises MEM_RANGE with no word (R86, R222). -/
def fetchAndRun (run : Instr → State → Host.Outcome State Fault Refusal) (s : State) :
    Host.Outcome State Fault Refusal :=
  match fetch s with
  | .ok w => settle s (run (decode w) (advance s))
  | .raised kind info => .next (raise s kind (some s.pc) none info)
  | .refused r => .refused r

/-- The instruction step: enabled only when no fault is recorded and no key wait is pending (R86). A machine that has
faulted answers its fault, a waiting one is refused (log entry 2). -/
def stepWith (run : Instr → State → Host.Outcome State Fault Refusal) (s : State) : Host.Outcome State Fault Refusal :=
  match s.fault with
  | some r => .fault r.kind
  | none =>
    match s.wait with
    | some _ => .refused .waitingForKey
    | none => fetchAndRun run s

/-- The execute(w) port: exec(decode(w)) with PC as it stands, refused while faulted or waiting (R87). -/
def executeWith (run : Instr → State → Host.Outcome State Fault Refusal) (w : Word) (s : State) :
    Host.Outcome State Fault Refusal :=
  match s.fault with
  | some _ => .refused .haltedByFault
  | none =>
    match s.wait with
    | some _ => .refused .waitingForKey
    | none => run (decode w) s

/-- The state in which the next step can fetch: no fault, no wait, and PC where two bytes lie in memory (a PC that is
already so is kept). -/
def readyToFetch (s : State) : State :=
  let t := (s.setFault none).setWait none
  if t.pc.toNat + 2 ≤ Config.memSize then t else t.setPc Config.entryPc

/-- The word w stored at PC, high byte first (R63). -/
def placeWord (s : State) (w : Word) : State :=
  s.setMem (Memory.writeBytes s.mem s.pc.toNat [highByte w, lowByte w])

end Sys2Proof.Machine
end

