-- ==== Sys2Proof/Machine/Step.lean ====
section
/-! DEFINITION. The step of the machine (spec/30_encoding.md R86), the `execute` port (R87), and the state with a given
instruction placed where `step` fetches. -/

namespace Sys2Proof.Machine

/-- step() (R86). -/
def step (s : State) : Host.Outcome State Fault Refusal := Sys2Proof.Machine.stepWith Sys2Proof.Machine.exec s

/-- execute(w) (R87). -/
def execute (w : Word) (s : State) : Host.Outcome State Fault Refusal :=
  Sys2Proof.Machine.executeWith Sys2Proof.Machine.exec w s

/-- s with the instruction whose bits are w stored at PC, ready to be fetched by the next step (log entry 7). -/
def State.withFetchWord (s : State) (nbits w : Nat) : State :=
  Sys2Proof.Machine.placeWord (Sys2Proof.Machine.readyToFetch s) (BitVec.ofNat 16 (w % 2 ^ nbits))

end Sys2Proof.Machine
end

