-- ==== Sys2Proof/Machine/Ports.lean ====
section
/-! DEFINITION. The operations the core offers its host (spec/60_exceptions.md R232), each one indivisible transition,
the one function that performs any of them, and runs of them in any order (R242). -/

namespace Sys2Proof.Machine

/-- What an operation answers its host. -/
inductive Answer where
  | nothing
  /-- load: OK or LOAD_ERROR (R68). -/
  | loaded
  | loadError
  /-- map: a virtual key code or none (R235). -/
  | key (k : Option Nibble)
  /-- is_set (R236). -/
  | pixel (on : Bool)
  /-- timers: DT and ST (R231). -/
  | timers (dt st : Byte)
  /-- sound: the tone level (R231). -/
  | sound (on : Bool)
  /-- waiting: Wait ≠ none (R35). -/
  | waiting (b : Bool)
  /-- fault: the record (R34). -/
  | fault (r : Option FaultRecord)
deriving DecidableEq, Repr

/-- The operations of R232. Host key identifiers and coordinates are numbers, checked where the rules check them. -/
inductive HostOp where
  | initializeCore
  | load (bytes : List Byte)
  | step
  | execute (w : Word)
  | tick
  | keyDown (k : Nat)
  | keyUp (k : Nat)
  | setMapping (t : KeyMap)
  | map (hostKey : Nat)
  | isSet (x y : Nat)
  | setOn (x y : Nat)
  | setOff (x y : Nat)
  | timers
  | sound
  | waiting
  | fault
deriving DecidableEq, Repr

/-- initialize(): everything at its reset value but KEYMAP (R260, R36); the draws go on, since no law relates one draw
to another (R133; log entry 3). -/
def initialized (s : State) : State := (State.reset.setKeymap s.keymap).setDraws s.draws

/-- load(bytes): no effect while faulted (R224); LOAD_ERROR without change when the program does not fit (R68). -/
def loadProgram (bytes : List Byte) (s : State) : State × Answer :=
  if s.fault.isSome then (s, .nothing)
  else if Config.memSize < Config.loadOffset + bytes.length then (s, .loadError)
  else (s.setMem (Memory.writeBytes s.mem Config.loadOffset bytes), .loaded)

/-- A timer one tick later: 0 stays 0 (R229). -/
def timerAfterTick (b : Byte) : Byte := if b.toNat = 0 then 0#8 else b - 1#8

/-- tick(): no effect while waiting or faulted (R229, R230). -/
def tick (s : State) : State :=
  if s.wait.isSome || s.fault.isSome then s
  else (s.setDt (timerAfterTick s.dt)).setSt (timerAfterTick s.st)

/-- key_down(k) for a legal code: no effect while faulted, completes a wait, else sets Key[k] (R173, R233). -/
def pressKey (k : Nibble) (s : State) : State :=
  if s.fault.isSome then s
  else
    match s.wait with
    | some x => ((s.setKey k true).setV x (k.setWidth 8)).setWait none
    | none => s.setKey k true

/-- key_up(k) for a legal code: no effect while faulted (R233). -/
def releaseKey (k : Nibble) (s : State) : State := if s.fault.isSome then s else s.setKey k false

/-- A virtual key code, or no transition when it is above 15 (R234). -/
def withKeyCode (k : Nat) (effect : Nibble → State) : Host.Outcome (State × Answer) Fault Refusal :=
  if k < Config.numKeys then .next (effect (BitVec.ofNat 4 k), .nothing) else .refused .keyCodeOutOfRange

/-- map(h): KEYMAP(h) or none (R235). -/
def mapKey (t : KeyMap) (hostKey : Nat) : Option Nibble :=
  match t with
  | [] => none
  | (h, k) :: rest => if h = hostKey then some k else mapKey rest hostKey

/-- A raw key-down of the host's keyboard: translated by map, ignored when unmapped (R233). -/
def rawKeyDown (hostKey : Nat) (s : State) : State :=
  match mapKey s.keymap hostKey with
  | some k => pressKey k s
  | none => s

/-- A raw key-up of the host's keyboard (R233). -/
def rawKeyUp (hostKey : Nat) (s : State) : State :=
  match mapKey s.keymap hostKey with
  | some k => releaseKey k s
  | none => s

/-- A coordinate lies on the screen (R236, R237). -/
def onScreen (x y : Nat) : Bool := decide (x < Config.screenW) && decide (y < Config.screenH)

/-- The SCREEN_BOUNDS fault of a host port: no pc, no word (R222, R236, R237). -/
def raiseScreenBounds (x y : Nat) (s : State) : State := raise s .screenBounds none none (.coordinate x y)

/-- is_set(x, y): in range it answers in every state; out of range it raises, or is refused once a fault is recorded
(R224, R236). -/
def isSet (x y : Nat) (s : State) : Host.Outcome (State × Answer) Fault Refusal :=
  if onScreen x y then .next (s, .pixel (s.fb.pixel (wrapX x) (wrapY y)))
  else if s.fault.isSome then .refused .haltedByFault
  else .next (raiseScreenBounds x y s, .nothing)

/-- set_on and set_off: no effect once a fault is recorded, SCREEN_BOUNDS out of range (R224, R237). -/
def writePixel (x y : Nat) (on : Bool) (s : State) : State :=
  if s.fault.isSome then s
  else if onScreen x y then s.setFb (s.fb.setPixel (wrapX x) (wrapY y) on)
  else raiseScreenBounds x y s

/-- sound(): ST > 0 (R231). -/
def soundLevel (s : State) : Bool := decide (0 < s.st.toNat)

/-- An instruction transition as a host operation: it answers nothing. -/
def withoutAnswer (o : Host.Outcome State Fault Refusal) : Host.Outcome (State × Answer) Fault Refusal :=
  match o with
  | .next t => .next (t, .nothing)
  | .fault r => .fault r
  | .refused r => .refused r

/-- Any operation of R232: the next state and the answer, or no transition. At any moment any operation may come next
(R242), so a claim about the core in its host holds for every sequence of these. -/
def perform (op : HostOp) (s : State) : Host.Outcome (State × Answer) Fault Refusal :=
  match op with
  | .initializeCore => .next (initialized s, .nothing)
  | .load bytes => .next (loadProgram bytes s)
  | .step => withoutAnswer (Sys2Proof.Machine.step s)
  | .execute w => withoutAnswer (Sys2Proof.Machine.execute w s)
  | .tick => .next (tick s, .nothing)
  | .keyDown k => withKeyCode k fun k => pressKey k s
  | .keyUp k => withKeyCode k fun k => releaseKey k s
  | .setMapping t => .next (s.setKeymap t, .nothing)
  | .map h => .next (s, .key (mapKey s.keymap h))
  | .isSet x y => isSet x y s
  | .setOn x y => .next (writePixel x y true s, .nothing)
  | .setOff x y => .next (writePixel x y false s, .nothing)
  | .timers => .next (s, .timers s.dt s.st)
  | .sound => .next (s, .sound (soundLevel s))
  | .waiting => .next (s, .waiting s.wait.isSome)
  | .fault => .next (s, .fault s.fault)

/-- Operations performed one after another, with what each answered. The list is the host's: every order and number of
steps, ticks, key events and the rest is some list (R242). It stops at an operation that is not enabled. -/
def performAll (ops : List HostOp) (s : State) : Host.Outcome (State × List Answer) Fault Refusal :=
  match ops with
  | [] => .next (s, [])
  | op :: rest =>
    match perform op s with
    | .next p =>
      match performAll rest p.1 with
      | .next q => .next (q.1, p.2 :: q.2)
      | .fault r => .fault r
      | .refused r => .refused r
    | .fault r => .fault r
    | .refused r => .refused r

end Sys2Proof.Machine
end

