-- ==== Sys2Proof/Safety.lean ====
section
/-! DEFINITION. What counts as a good state and a safe run, and the terms claims about the machine are made in: the
invariants, what an instruction names as its destination, and what "unchanged" means. -/

namespace Sys2Proof.Machine

/-- The core has not faulted: "This end is never a good one" (R244). -/
def State.safe (s : State) : Bool := s.fault.isNone

/-- An instruction step is enabled (R86). -/
abbrev State.enabled (s : State) : Prop := s.fault = none ∧ s.wait = none

/-- Some sequence of host operations, steps and executes among them, in some order, leads from s to t (R242). -/
abbrev State.reaches (s t : State) : Prop := ∃ ops answers, performAll ops s = .next (t, answers)

/-- t stands at the end of a run of the core in its host: some sequence of operations leads to it from the state after
`initialize` (R238, R242). -/
abbrev State.reachable (t : State) : Prop := State.reset.reaches t

/-- A fault record of a form R221 and R222 describe: the info of its kind, with the bound its kind says was broken, and
no pc and no word exactly for a host-port fault. -/
def FaultRecord.wf (r : FaultRecord) : Bool :=
  match r.kind, r.info with
  | .memRange, .address a => decide (Config.memSize ≤ a) && r.pc.isSome
  | .stackOverflow, .nothing => r.pc.isSome && r.word.isSome
  | .stackUnderflow, .nothing => r.pc.isSome && r.word.isSome
  | .keyRange, .key v => decide (15 < v.toNat) && r.pc.isSome && r.word.isSome
  | .screenBounds, .coordinate x y =>
    (decide (Config.screenW ≤ x) || decide (Config.screenH ≤ y)) && r.pc.isNone && r.word.isNone
  | _, _ => false

/-- The invariant of the machine under every operation of its host. -/
structure State.Inv (s : State) : Prop where
  /-- Memory is in its canonical form, inside the address space (log entry 5). -/
  memory : Memory.wf s.mem = true
  /-- SP is in its legal range 0..STACK_DEPTH (R25, R38). -/
  stackPointer : s.sp.toNat ≤ 16
  /-- A fault record has a form R221 and R222 describe. -/
  faultRecord : ∀ r, s.fault = some r → r.wf = true

/-- The bound on PC under `step` alone (R24, R109). -/
structure State.PcBounded (s : State) : Prop where
  /-- PC is at most 0x10FE, the largest target of JP V0, nnn (R108). -/
  pc : s.pc.toNat ≤ 0x10FE
  /-- Every stack slot holds an address a fetch can have advanced PC to. -/
  slots : ∀ j, 1 ≤ j → j ≤ 16 → (s.stackSlot j).toNat ≤ 4096

end Sys2Proof.Machine

namespace Sys2Proof

/-! ## What an instruction may change -/

/-- The register an instruction names as its destination, but for LD Vx, [I]. -/
def Instr.destination : Instr → Option Nibble
  | .ldVxKk x _ | .addVxKk x _ | .ldVxVy x _ | .orVxVy x _ | .andVxVy x _ | .xorVxVy x _ | .addVxVy x _
  | .subVxVy x _ | .shrVx x _ | .subnVxVy x _ | .shlVx x _ | .rndVxKk x _ | .ldVxDt x => some x
  | .cls | .ret | .sys _ | .jp _ | .call _ | .seVxKk _ _ | .sneVxKk _ _ | .seVxVy _ _ _ | .sneVxVy _ _ _ | .ldINnn _
  | .jpV0Nnn _ | .drwVxVyN _ _ _ | .skpVx _ | .sknpVx _ | .ldVxK _ | .ldDtVx _ | .ldStVx _ | .addIVx _ | .ldFVx _
  | .ldBVx _ | .ldMemVx _ | .ldVxMem _ | .nop _ => none

/-- The instruction writes VF without naming it: the six of R21's table. -/
def Instr.writesFlag : Instr → Bool
  | .addVxVy _ _ | .subVxVy _ _ | .shrVx _ _ | .subnVxVy _ _ | .shlVx _ _ | .drwVxVyN _ _ _ => true
  | .cls | .ret | .sys _ | .jp _ | .call _ | .seVxKk _ _ | .sneVxKk _ _ | .seVxVy _ _ _ | .ldVxKk _ _ | .addVxKk _ _
  | .ldVxVy _ _ | .orVxVy _ _ | .andVxVy _ _ | .xorVxVy _ _ | .sneVxVy _ _ _ | .ldINnn _ | .jpV0Nnn _
  | .rndVxKk _ _ | .skpVx _ | .sknpVx _ | .ldVxDt _ | .ldVxK _ | .ldDtVx _ | .ldStVx _ | .addIVx _ | .ldFVx _
  | .ldBVx _ | .ldMemVx _ | .ldVxMem _ | .nop _ => false

/-- The instruction may write register z: its destination, VF by a flag, or one of V0..Vx of LD Vx, [I]. -/
def Instr.mayWriteReg (i : Instr) (z : Nibble) : Bool :=
  i.destination == some z || (i.writesFlag && z == Machine.vf)
    || (match i with | .ldVxMem x => decide (z.toNat ≤ x.toNat) | _ => false)

/-- The instruction is a control transfer or a skip (R109). -/
def Instr.mayWritePc : Instr → Bool
  | .ret | .jp _ | .call _ | .seVxKk _ _ | .sneVxKk _ _ | .seVxVy _ _ _ | .sneVxVy _ _ _ | .jpV0Nnn _ | .skpVx _
  | .sknpVx _ => true
  | .cls | .sys _ | .ldVxKk _ _ | .addVxKk _ _ | .ldVxVy _ _ | .orVxVy _ _ | .andVxVy _ _ | .xorVxVy _ _
  | .addVxVy _ _ | .subVxVy _ _ | .shrVx _ _ | .subnVxVy _ _ | .shlVx _ _ | .ldINnn _ | .rndVxKk _ _
  | .drwVxVyN _ _ _ | .ldVxDt _ | .ldVxK _ | .ldDtVx _ | .ldStVx _ | .addIVx _ | .ldFVx _ | .ldBVx _ | .ldMemVx _
  | .ldVxMem _ | .nop _ => false

end Sys2Proof

namespace Sys2Proof.Machine

/-! ## What stayed as it was -/

/-- Every byte of memory reads as before. -/
abbrev sameMemory (s t : State) : Prop := ∀ a : Nat, Memory.read t.mem a = Memory.read s.mem a

/-- Every register but those the predicate picks reads as before. -/
abbrev sameRegsBut (s t : State) (p : Nibble → Bool) : Prop := ∀ z : Nibble, p z = false → t.getV z = s.getV z

/-- Nothing but registers changed: I, PC, the stack, the timers, memory, the screen, the keys, the fault record, the
key wait, the key mapping and the count of draws are as before. -/
abbrev onlyRegs (s t : State) : Prop := { t with v := s.v } = s ∧ sameMemory s t

/-- Nothing but PC changed. -/
abbrev onlyPc (s t : State) : Prop := { t with pc := s.pc } = s ∧ sameMemory s t

/-- Nothing but the fault record changed. -/
abbrev onlyFault (s t : State) : Prop := { t with fault := s.fault } = s ∧ sameMemory s t

/-- Nothing but memory changed, and of memory nothing outside the len bytes from base. -/
abbrev onlyBytes (s t : State) (base len : Nat) : Prop :=
  { t with mem := s.mem } = s ∧ ∀ a : Nat, a < base ∨ base + len ≤ a → Memory.read t.mem a = Memory.read s.mem a

/-- a is the lowest of the len addresses from base that lies outside memory (R221, R223). -/
abbrev lowestOutside (base len a : Nat) : Prop :=
  Config.memSize ≤ a ∧ (∃ j, j < len ∧ a = base + j) ∧ ∀ j, j < len → Config.memSize ≤ base + j → a ≤ base + j

/-- o is the transition of instruction i that raises MEM_RANGE for len accesses from base: nothing but the record
changes, and it holds PC, the instruction's word and the lowest address outside memory (R17, R222, R223). -/
abbrev raisesMemRange (i : Instr) (s : State) (base len : Nat) (o : Host.Outcome State Fault Refusal) : Prop :=
  ∃ t a, o = .next t ∧ onlyFault s t ∧ lowestOutside base len a
    ∧ t.fault = some ⟨.memRange, some s.pc, some (encode i), .address a⟩

/-- The pixel a sprite of these rows at (x0, y0) covers with a 1 bit, the wrap included (R151): column x is c columns
right of x0 modulo 64 with c < 8, row y is r rows below y0 modulo 32 with r a row of the sprite, and bit 7 - c of row
r is 1. -/
def spriteCovers (x0 y0 : Nat) (rows : List Byte) (x : Fin 64) (y : Fin 32) : Bool :=
  let c := (x.val + (64 - x0 % 64)) % 64
  let r := (y.val + (32 - y0 % 32)) % 32
  decide (c < 8) && decide (r < rows.length) && (rows.getD r 0#8).getLsbD (7 - c)

end Sys2Proof.Machine
end

