-- ==== Sys2Proof/Certificates/Slice0/Obligations.lean ====
section
/-! DEFINITION. The statements for the provers, each from the numbered rules of spec/. A statement whose docstring names
a decision (D<n>), a log entry or "general knowledge" rests there on a choice the spec marks as its own, or on the
model's; the rest is the rule's plain text. -/

open Sys2Proof Sys2Proof.Machine

/-! ## Encoding and decoding -/

/-- A few words written out from the opcode map of 30_encoding.md section 3 decode to their instructions, among them
words with ignored bits set and words of the no-op space (encodings: the spec's decision D6). -/
def Obligations.WordsOfTheOpcodeMapDecode : Prop :=
  decode 0x00E0#16 = .cls ∧ decode 0x00EE#16 = .ret ∧ decode 0x00E1#16 = .sys 0x0E1#12
    ∧ decode 0x2210#16 = .call 0x210#12 ∧ decode 0x5127#16 = .seVxVy 1 2 7 ∧ decode 0x8AB4#16 = .addVxVy 0xA 0xB
    ∧ decode 0x8126#16 = .shrVx 1 2 ∧ decode 0x8108#16 = .nop 0x8108#16 ∧ decode 0xB300#16 = .jpV0Nnn 0x300#12
    ∧ decode 0xD015#16 = .drwVxVyN 0 1 5 ∧ decode 0xE19E#16 = .skpVx 1 ∧ decode 0xE09F#16 = .nop 0xE09F#16
    ∧ decode 0xF50A#16 = .ldVxK 5 ∧ decode 0xF265#16 = .ldVxMem 2 ∧ decode 0xF01F#16 = .nop 0xF01F#16

/-- Decoding the encoding of a well-formed instruction gives it back, every operand and every ignored field at every
value (R81, R83; encodings: the spec's decision D6). -/
def Obligations.DecodeOfEncodeIsTheInstruction : Prop :=
  ∀ i : Instr, i.wf = true → decode (encode i) = i ∧ decodeBytes (encodeBytes i) = .ok (i, [])

/-- Every word decodes to a well-formed instruction whose encoding is that word: decode is total and loses no bit
(R83: "The decode is total"). -/
def Obligations.EveryWordIsTheEncodingOfItsInstruction : Prop :=
  ∀ w : Word, (decode w).wf = true ∧ encode (decode w) = w

/-- The decoder and the opcode table agree both ways: a word matches the row of the instruction it decodes to, and a
word that matches the row of a well-formed instruction decodes to an instruction of that row, where the rows CLS and RET
come before SYS and every other row before NOP (30_encoding.md section 3, opcode_table.json). -/
def Obligations.DecoderAgreesWithTheOpcodeTable : Prop :=
  (∀ w : Word, w &&& (decode w).rowMask = (decode w).rowMatch)
    ∧ ∀ (w : Word) (i : Instr), i.wf = true → i.rowMask ≠ 0x0000#16 → w &&& i.rowMask = i.rowMatch →
      (w = 0x00E0#16 → i.rowMask = 0xF000#16 → decode w = .cls)
        ∧ (w = 0x00EE#16 → i.rowMask = 0xF000#16 → decode w = .ret)
        ∧ ((w ≠ 0x00E0#16 ∧ w ≠ 0x00EE#16) ∨ i.rowMask ≠ 0xF000#16 →
            (decode w).rowMask = i.rowMask ∧ (decode w).rowMatch = i.rowMatch)

/-- The low nibble of 5xyn and 9xyn and the y of 8xy6 and 8xyE have no effect: the canonical instruction does the same
(R85, R89, the spec's derivations). -/
def Obligations.IgnoredFieldsHaveNoEffect : Prop :=
  ∀ (i : Instr) (s : State), exec i.canonical s = exec i s

/-- R80: every instruction is one 16-bit word, two bytes with the high byte first, whatever bytes follow: the decoder
reads exactly them, the encoder writes exactly them, and the fetch forms its word of the two bytes at PC. -/
def Obligations.InstructionIsOneBigEndianWord : Prop :=
  (∀ (hi lo : Byte) (rest : List Byte),
      ∃ w : Word, w.toNat = 256 * hi.toNat + lo.toNat ∧ decodeBytes (hi :: lo :: rest) = .ok (decode w, rest))
    ∧ (∀ i : Instr, ∃ hi lo : Byte, encodeBytes i = [hi, lo] ∧ (encode i).toNat = 256 * hi.toNat + lo.toNat)
    ∧ ∀ s : State, s.pc.toNat + 2 ≤ 4096 →
      ∃ w : Word, fetch s = .ok w
        ∧ w.toNat = 256 * (Memory.read s.mem s.pc.toNat).toNat + (Memory.read s.mem (s.pc.toNat + 1)).toNat

/-! ## The no-op space -/

/-- R84, R86, R100: SYS nnn and NOP change nothing when executed; so does every word of the no-op space, and a step that
fetches one changes PC alone. Which words of families 8, E and F are in it rests on the sub-opcode values of D6 (log
entry 8). -/
def Obligations.UnrecognisedWordsAreNoOps : Prop :=
  (∀ (nnn : Addr) (w : Word) (s : State), exec (.sys nnn) s = .next s ∧ exec (.nop w) s = .next s)
    ∧ ∀ (w : Word) (s : State),
      ((opField w = 0x0#4 ∧ w ≠ 0x00E0#16 ∧ w ≠ 0x00EE#16)
        ∨ (opField w = 0x8#4 ∧ nField w ∈ [0x8#4, 0x9#4, 0xA#4, 0xB#4, 0xC#4, 0xD#4, 0xF#4])
        ∨ (opField w = 0xE#4 ∧ kkField w ∉ [0x9E#8, 0xA1#8])
        ∨ (opField w = 0xF#4 ∧ kkField w ∉ [0x07#8, 0x0A#8, 0x15#8, 0x18#8, 0x1E#8, 0x29#8, 0x33#8, 0x55#8, 0x65#8])) →
      exec (decode w) s = .next s ∧ (s.enabled → fetch s = .ok w → step s = .next (s.setPc (s.pc + 2#16)))

/-! ## Control flow -/

/-- R102: JP writes PC with the zero-extended target and nothing else. -/
def Obligations.JumpWritesPcOnly : Prop :=
  ∀ (nnn : Addr) (s : State), ∃ t, exec (.jp nnn) s = .next t ∧ t.pc.toNat = nnn.toNat ∧ onlyPc s t

/-- R103, R27: CALL with room on the stack pushes PC (as it stands: D17), increments SP and jumps; every other slot and
everything else is as before. With a full stack it raises STACK_OVERFLOW (D4), and nothing but the fault record
changes. -/
def Obligations.CallPushesPcAndJumpsOrOverflows : Prop :=
  ∀ (nnn : Addr) (s : State),
    (s.sp.toNat < 16 →
      ∃ t, exec (.call nnn) s = .next t ∧ t.pc.toNat = nnn.toNat ∧ t.sp.toNat = s.sp.toNat + 1
        ∧ (∀ j, 1 ≤ j → j ≤ 16 → t.stackSlot j = if j = s.sp.toNat + 1 then s.pc else s.stackSlot j)
        ∧ { t with pc := s.pc, sp := s.sp, stack := s.stack } = s ∧ sameMemory s t)
      ∧ (s.sp.toNat = 16 →
        exec (.call nnn) s
          = .next { s with fault := some ⟨.stackOverflow, some s.pc, some (0x2#4 ++ nnn), .nothing⟩ })

/-- R101: RET with SP in 1..16 jumps to the top entry, unchanged, and decrements SP; the slots keep their values. With an
empty stack it raises STACK_UNDERFLOW, and nothing but the fault record changes. -/
def Obligations.ReturnPopsPcOrUnderflows : Prop :=
  ∀ s : State,
    (1 ≤ s.sp.toNat → s.sp.toNat ≤ 16 →
      ∃ t, exec .ret s = .next t ∧ t.pc = s.stackSlot s.sp.toNat ∧ t.sp.toNat = s.sp.toNat - 1
        ∧ { t with pc := s.pc, sp := s.sp } = s ∧ sameMemory s t)
      ∧ (s.sp.toNat = 0 →
        exec .ret s = .next { s with fault := some ⟨.stackUnderflow, some s.pc, some 0x00EE#16, .nothing⟩ })

/-- S6: from any state with room, RET in any state with the CALL's stack comes back to the instruction after the CALL
with the stack pointer it had, and every slot below is as it was (R27, R28, R101, R103; D17). -/
def Obligations.ReturnUndoesCall : Prop :=
  ∀ (nnn : Addr) (s t u : State), s.sp.toNat < 16 → exec (.call nnn) s = .next t → u.sp = t.sp → u.stack = t.stack →
    ∃ r, exec .ret u = .next r ∧ r.pc = s.pc ∧ r.sp = s.sp
      ∧ ∀ j, 1 ≤ j → j ≤ s.sp.toNat → r.stackSlot j = s.stackSlot j

/-- R104, R105: SE Vx, kk adds 2 to PC when V[x] = kk and SNE Vx, kk when V[x] ≠ kk; nothing else changes (the conditions
are general knowledge, D6). -/
def Obligations.SkipsComparingImmediate : Prop :=
  ∀ (x : Nibble) (kk : Byte) (s : State),
    ∃ t u, exec (.seVxKk x kk) s = .next t ∧ exec (.sneVxKk x kk) s = .next u
      ∧ t.pc.toNat = (s.pc.toNat + if s.getV x = kk then 2 else 0) % 65536
      ∧ u.pc.toNat = (s.pc.toNat + if s.getV x = kk then 0 else 2) % 65536
      ∧ onlyPc s t ∧ onlyPc s u

/-- R106, R107: SE Vx, Vy and SNE Vx, Vy, whatever the low nibble (the spec's derivation, R85): the skip is taken exactly
by one of the two, nothing but PC changes, and with x = y SE always skips and SNE never. -/
def Obligations.SkipsComparingRegisters : Prop :=
  ∀ (x y n : Nibble) (s : State),
    ∃ t u, exec (.seVxVy x y n) s = .next t ∧ exec (.sneVxVy x y n) s = .next u
      ∧ t.pc.toNat = (s.pc.toNat + if s.getV x = s.getV y then 2 else 0) % 65536
      ∧ u.pc.toNat = (s.pc.toNat + if s.getV x = s.getV y then 0 else 2) % 65536
      ∧ onlyPc s t ∧ onlyPc s u
      ∧ (x = y → t.pc = s.pc + 2#16 ∧ u.pc = s.pc)

/-- R108: JP V0, nnn jumps to nnn + V0, not reduced modulo 4096 and at most 0x10FE (general knowledge and D16). -/
def Obligations.JumpWithOffset : Prop :=
  ∀ (nnn : Addr) (s : State),
    ∃ t, exec (.jpV0Nnn nnn) s = .next t ∧ t.pc.toNat = nnn.toNat + (s.getV 0).toNat ∧ t.pc.toNat ≤ 0x10FE ∧ onlyPc s t

/-! ## Loads, arithmetic, logic, shifts, random -/

/-- R120, R121, R124: LD Vx, kk, ADD Vx, kk (no carry: D8) and LD Vx, Vy write V[x] alone (general knowledge). -/
def Obligations.ImmediateLoadAddAndCopy : Prop :=
  ∀ (x y : Nibble) (kk : Byte) (s : State),
    ∃ t u w, exec (.ldVxKk x kk) s = .next t ∧ exec (.addVxKk x kk) s = .next u ∧ exec (.ldVxVy x y) s = .next w
      ∧ t.getV x = kk ∧ (u.getV x).toNat = ((s.getV x).toNat + kk.toNat) % 256 ∧ w.getV x = s.getV y
      ∧ (∀ z, z ≠ x → t.getV z = s.getV z ∧ u.getV z = s.getV z ∧ w.getV z = s.getV z)
      ∧ onlyRegs s t ∧ onlyRegs s u ∧ onlyRegs s w

/-- R125, R126, R127: OR, AND and XOR act bit by bit and write V[x] alone, VF too only when x = 15 (general knowledge
and D8). -/
def Obligations.BitwiseOperations : Prop :=
  ∀ (x y : Nibble) (s : State),
    ∃ t u w, exec (.orVxVy x y) s = .next t ∧ exec (.andVxVy x y) s = .next u ∧ exec (.xorVxVy x y) s = .next w
      ∧ (∀ k, k < 8 → (t.getV x).getLsbD k = ((s.getV x).getLsbD k || (s.getV y).getLsbD k)
          ∧ (u.getV x).getLsbD k = ((s.getV x).getLsbD k && (s.getV y).getLsbD k)
          ∧ (w.getV x).getLsbD k = ((s.getV x).getLsbD k ^^ (s.getV y).getLsbD k))
      ∧ (∀ z, z ≠ x → t.getV z = s.getV z ∧ u.getV z = s.getV z ∧ w.getV z = s.getV z)
      ∧ onlyRegs s t ∧ onlyRegs s u ∧ onlyRegs s w

/-- R128: ADD Vx, Vy: V[x] is the sum modulo 256, VF the carry unless x = 15, when the sum overwrites it. -/
def Obligations.AddWithCarry : Prop :=
  ∀ (x y : Nibble) (s : State),
    ∃ t, exec (.addVxVy x y) s = .next t
      ∧ (t.getV x).toNat = ((s.getV x).toNat + (s.getV y).toNat) % 256
      ∧ (x ≠ 0xF#4 → (t.getV 0xF#4).toNat = if 255 < (s.getV x).toNat + (s.getV y).toNat then 1 else 0)
      ∧ (∀ z, z ≠ x → z ≠ 0xF#4 → t.getV z = s.getV z) ∧ onlyRegs s t

/-- R129: SUB Vx, Vy: VF first gets 1 when V[x] > V[y] strictly, else 0; then V[x] gets V[x] - V[y] modulo 256, read after
that write (so a source that is VF reads the flag). -/
def Obligations.SubtractWithStrictFlag : Prop :=
  ∀ (x y : Nibble) (s : State),
    ∃ t, exec (.subVxVy x y) s = .next t
      ∧ (let f : Nat := if (s.getV y).toNat < (s.getV x).toNat then 1 else 0
         let a : Nat := if x = 0xF#4 then f else (s.getV x).toNat
         let b : Nat := if y = 0xF#4 then f else (s.getV y).toNat
         (t.getV x).toNat = (a + 256 - b) % 256 ∧ (x ≠ 0xF#4 → (t.getV 0xF#4).toNat = f))
      ∧ (∀ z, z ≠ x → z ≠ 0xF#4 → t.getV z = s.getV z) ∧ onlyRegs s t

/-- R130: SHR Vx: VF gets the old bit 0, V[x] half of V[x]; for x = 15 the result is 0; y is not read. -/
def Obligations.ShiftRight : Prop :=
  ∀ (x y : Nibble) (s : State),
    ∃ t, exec (.shrVx x y) s = .next t
      ∧ (x ≠ 0xF#4 → (t.getV x).toNat = (s.getV x).toNat / 2 ∧ (t.getV 0xF#4).toNat = (s.getV x).toNat % 2)
      ∧ (x = 0xF#4 → t.getV 0xF#4 = 0#8)
      ∧ (∀ z, z ≠ x → z ≠ 0xF#4 → t.getV z = s.getV z) ∧ onlyRegs s t

/-- R131: SUBN Vx, Vy: VF first gets 1 when V[y] > V[x] strictly, else 0; then V[x] gets V[y] - V[x] modulo 256, read
after that write. -/
def Obligations.ReverseSubtract : Prop :=
  ∀ (x y : Nibble) (s : State),
    ∃ t, exec (.subnVxVy x y) s = .next t
      ∧ (let f : Nat := if (s.getV x).toNat < (s.getV y).toNat then 1 else 0
         let a : Nat := if x = 0xF#4 then f else (s.getV x).toNat
         let b : Nat := if y = 0xF#4 then f else (s.getV y).toNat
         (t.getV x).toNat = (b + 256 - a) % 256 ∧ (x ≠ 0xF#4 → (t.getV 0xF#4).toNat = f))
      ∧ (∀ z, z ≠ x → z ≠ 0xF#4 → t.getV z = s.getV z) ∧ onlyRegs s t

/-- R132: SHL Vx: VF gets the old bit 7 in place, 0 or 0x80, V[x] twice V[x] modulo 256; for x = 15 the result is 0; y is
not read. -/
def Obligations.ShiftLeftFlagNotNormalised : Prop :=
  ∀ (x y : Nibble) (s : State),
    ∃ t, exec (.shlVx x y) s = .next t
      ∧ (x ≠ 0xF#4 → (t.getV x).toNat = (s.getV x).toNat * 2 % 256
          ∧ (t.getV 0xF#4).toNat = if 128 ≤ (s.getV x).toNat then 0x80 else 0)
      ∧ (x = 0xF#4 → t.getV 0xF#4 = 0#8)
      ∧ (∀ z, z ≠ x → z ≠ 0xF#4 → t.getV z = s.getV z) ∧ onlyRegs s t

/-- R133: RND Vx, kk writes r & kk for a draw r of 0 to 254 (a free value, log entry 3; D21), so V[x] is never 0xFF; no
other register and nothing else changes but the model's count of draws. -/
def Obligations.RandomByteIsMaskedDraw : Prop :=
  ∀ (x : Nibble) (kk : Byte) (s : State),
    ∃ t, exec (.rndVxKk x kk) s = .next t
      ∧ (∃ r : Nat, r ≤ 254 ∧ t.getV x = (BitVec.ofNat 8 r &&& kk)) ∧ t.getV x ≠ 0xFF#8
      ∧ (∀ z, z ≠ x → t.getV z = s.getV z)
      ∧ { t with v := s.v, draws := s.draws } = s ∧ sameMemory s t

/-! ## Display -/

/-- R152, R150: CLS turns every pixel off and changes nothing else. -/
def Obligations.ClearScreen : Prop :=
  ∀ s : State, ∃ t, exec .cls s = .next t ∧ (∀ x y, t.fb.pixel x y = false) ∧ { t with fb := s.fb } = s ∧ sameMemory s t

/-- R151: draw_sprite in closed form: each pixel is toggled exactly when the wrapped sprite covers it with a 1 bit, and
the collision is that some covered pixel was on. A sprite is at most 15 rows high, so no pixel is covered twice (the
spec's derivation, on which the closed form rests; for DRW n is at most 15, R153). -/
def Obligations.DrawSpriteTogglesWhatItCovers : Prop :=
  ∀ (fb : Screen) (x0 y0 : Nat) (rows : List Byte), rows.length ≤ 15 →
    (∀ x y, (drawSprite fb x0 y0 rows).fb.pixel x y = (fb.pixel x y ^^ spriteCovers x0 y0 rows x y))
      ∧ ((drawSprite fb x0 y0 rows).hit = true ↔ ∃ x y, spriteCovers x0 y0 rows x y = true ∧ fb.pixel x y = true)

/-- S3: drawing the same sprite twice at the same place restores the whole screen; the second draw collides exactly when
some covered pixel was off before the first (log entry 10: R153 says "if the sprite has any 1 bit", which R151's own
loop denies for a screen already on). -/
def Obligations.DrawingTwiceRestoresTheScreen : Prop :=
  ∀ (fb : Screen) (x0 y0 : Nat) (rows : List Byte), rows.length ≤ 15 →
    (drawSprite (drawSprite fb x0 y0 rows).fb x0 y0 rows).fb = fb
      ∧ ((drawSprite (drawSprite fb x0 y0 rows).fb x0 y0 rows).hit = true
          ↔ ∃ x y, spriteCovers x0 y0 rows x y = true ∧ fb.pixel x y = false)

/-- R153: DRW with its sprite in memory: the pixels the sprite covers toggle, the coordinates and the bytes read before
VF is written; VF is 1 on a collision, else 0, also for n = 0 (VF: D7); I, memory and the rest are as before. -/
def Obligations.DrawWritesScreenAndCollision : Prop :=
  ∀ (x y n : Nibble) (s : State), n = 0#4 ∨ s.i.toNat + n.toNat ≤ 4096 →
    ∃ t, exec (.drwVxVyN x y n) s = .next t
      ∧ (let rows := Memory.readBytes s.mem s.i.toNat n.toNat
         let covers := spriteCovers (s.getV x).toNat (s.getV y).toNat rows
         (∀ px py, t.fb.pixel px py = (s.fb.pixel px py ^^ covers px py))
          ∧ ((∃ px py, covers px py = true ∧ s.fb.pixel px py = true) → t.getV 0xF#4 = 1#8)
          ∧ ((∀ px py, covers px py = true → s.fb.pixel px py = false) → t.getV 0xF#4 = 0#8))
      ∧ (∀ z, z ≠ 0xF#4 → t.getV z = s.getV z)
      ∧ { t with v := s.v, fb := s.fb } = s ∧ sameMemory s t

/-- R154: LD F points I at 5 times V[x], not masked, and changes nothing else. -/
def Obligations.FontAddress : Prop :=
  ∀ (x : Nibble) (s : State),
    ∃ t, exec (.ldFVx x) s = .next t ∧ t.i.toNat = (s.getV x).toNat * 5 ∧ { t with i := s.i } = s ∧ sameMemory s t

/-! ## Keyboard -/

/-- R170, R171: with V[x] at most 15, SKP skips when key V[x] is down and SKNP when it is up, and nothing but PC changes;
with V[x] above 15 both raise KEY_RANGE with the value of V[x] (D11), and nothing but the fault record changes. -/
def Obligations.KeySkipsOrRaise : Prop :=
  ∀ (x : Nibble) (s : State),
    ((s.getV x).toNat ≤ 15 →
      ∃ t u, exec (.skpVx x) s = .next t ∧ exec (.sknpVx x) s = .next u
        ∧ t.pc.toNat = (s.pc.toNat + if s.keys[(s.getV x).toNat]?.getD false then 2 else 0) % 65536
        ∧ u.pc.toNat = (s.pc.toNat + if s.keys[(s.getV x).toNat]?.getD false then 0 else 2) % 65536
        ∧ onlyPc s t ∧ onlyPc s u)
      ∧ (15 < (s.getV x).toNat →
        exec (.skpVx x) s
            = .next { s with fault := some ⟨.keyRange, some s.pc, some (0xE#4 ++ x ++ 0x9E#8), .key (s.getV x)⟩ }
          ∧ exec (.sknpVx x) s
            = .next { s with fault := some ⟨.keyRange, some s.pc, some (0xE#4 ++ x ++ 0xA1#8), .key (s.getV x)⟩ })

/-- R172: LD Vx, K sets the key wait to x and nothing else, whatever keys are down (D13). -/
def Obligations.KeyWaitBegins : Prop :=
  ∀ (x : Nibble) (s : State),
    ∃ t, exec (.ldVxK x) s = .next t ∧ t.wait = some x ∧ { t with wait := s.wait } = s ∧ sameMemory s t

/-- R172, R173, R174 from the fetch on: a step that runs LD Vx, K suspends the core past the instruction, no step is
enabled (log entry 2), a tick and a key_up do not end the wait, and the next key_down stores its code in V[x], presses
the key (D13) and ends it. -/
def Obligations.KeyWaitEndsWithOneKeyDown : Prop :=
  ∀ (x k j : Nibble) (s : State) (w : Word), s.enabled → fetch s = .ok w → decode w = .ldVxK x →
    ∃ t u r, step s = .next t ∧ t.wait = some x ∧ t.pc = s.pc + 2#16 ∧ step t = .refused .waitingForKey
      ∧ perform .tick t = .next (t, .nothing)
      ∧ perform (.keyUp j.toNat) t = .next (u, .nothing) ∧ u.wait = some x
      ∧ perform (.keyDown k.toNat) t = .next (r, .nothing) ∧ r.enabled ∧ r.pc = s.pc + 2#16
      ∧ (r.getV x).toNat = k.toNat ∧ (∀ z, z ≠ x → r.getV z = s.getV z)
      ∧ r.getKey k = true ∧ (∀ z, z ≠ k → r.getKey z = s.getKey z)
      ∧ { r with v := s.v, keys := s.keys, pc := s.pc } = s

/-! ## Address register, timers, BCD, block transfer -/

/-- R190, R194: LD I loads the zero-extended address; ADD I adds V[x] modulo 65536 and leaves VF alone (general
knowledge, D8, D10). Nothing but I changes. -/
def Obligations.AddressRegisterLoadAndAdd : Prop :=
  ∀ (nnn : Addr) (x : Nibble) (s : State),
    ∃ t u, exec (.ldINnn nnn) s = .next t ∧ exec (.addIVx x) s = .next u
      ∧ t.i.toNat = nnn.toNat ∧ u.i.toNat = (s.i.toNat + (s.getV x).toNat) % 65536
      ∧ { t with i := s.i } = s ∧ { u with i := s.i } = s ∧ sameMemory s t ∧ sameMemory s u

/-- R191, R192, R193: the timer transfers copy a byte and change nothing else (general knowledge). -/
def Obligations.TimerTransfers : Prop :=
  ∀ (x : Nibble) (s : State),
    ∃ t u w, exec (.ldVxDt x) s = .next t ∧ exec (.ldDtVx x) s = .next u ∧ exec (.ldStVx x) s = .next w
      ∧ t.getV x = s.dt ∧ (∀ z, z ≠ x → t.getV z = s.getV z) ∧ onlyRegs s t
      ∧ u.dt = s.getV x ∧ { u with dt := s.dt } = s ∧ sameMemory s u
      ∧ w.st = s.getV x ∧ { w with st := s.st } = s ∧ sameMemory s w

/-- R195: LD B stores the hundreds, tens and units of V[x] at I, I + 1 and I + 2 and changes no other byte and nothing
else; if I + 2 lies outside memory it raises MEM_RANGE and writes nothing. -/
def Obligations.DecimalDigitsStored : Prop :=
  ∀ (x : Nibble) (s : State),
    (s.i.toNat + 2 < 4096 →
      ∃ t, exec (.ldBVx x) s = .next t
        ∧ (Memory.read t.mem s.i.toNat).toNat = (s.getV x).toNat / 100
        ∧ (Memory.read t.mem (s.i.toNat + 1)).toNat = (s.getV x).toNat / 10 % 10
        ∧ (Memory.read t.mem (s.i.toNat + 2)).toNat = (s.getV x).toNat % 10
        ∧ onlyBytes s t s.i.toNat 3)
      ∧ (4096 ≤ s.i.toNat + 2 → raisesMemRange (.ldBVx x) s s.i.toNat 3 (exec (.ldBVx x) s))

/-- R196, R197: LD [I], Vx stores V0 to Vx at I to I + x and changes no other byte and nothing else; LD Vx, [I] loads V0
to Vx from there and leaves the registers above x and everything else as before (I unchanged: D9). -/
def Obligations.RegisterBlockTransfers : Prop :=
  ∀ (x : Nibble) (s : State), s.i.toNat + x.toNat < 4096 →
    ∃ t u, exec (.ldMemVx x) s = .next t ∧ exec (.ldVxMem x) s = .next u
      ∧ (∀ z : Nibble, z.toNat ≤ x.toNat → Memory.read t.mem (s.i.toNat + z.toNat) = s.getV z)
      ∧ onlyBytes s t s.i.toNat (x.toNat + 1)
      ∧ (∀ z : Nibble, z.toNat ≤ x.toNat → u.getV z = Memory.read s.mem (s.i.toNat + z.toNat))
      ∧ (∀ z : Nibble, x.toNat < z.toNat → u.getV z = s.getV z) ∧ onlyRegs s u

/-- R196, R197: a block stored and loaded again, with any registers in between, gives the registers back (D9). -/
def Obligations.BlockLoadRestoresBlockStore : Prop :=
  ∀ (x : Nibble) (s t u : State), s.i.toNat + x.toNat < 4096 → exec (.ldMemVx x) s = .next t →
    u.mem = t.mem → u.i = t.i →
    ∃ r, exec (.ldVxMem x) u = .next r ∧ ∀ z : Nibble, z.toNat ≤ x.toNat → r.getV z = s.getV z

/-- R153, R196, R197, R223: DRW, LD [I] and LD Vx, [I] whose bytes reach outside memory raise MEM_RANGE with the lowest
address outside; nothing but the fault record changes (D3, D14, D15). -/
def Obligations.AccessOutsideMemoryRaises : Prop :=
  ∀ (x y n : Nibble) (s : State),
    (n ≠ 0#4 → 4096 < s.i.toNat + n.toNat →
      raisesMemRange (.drwVxVyN x y n) s s.i.toNat n.toNat (exec (.drwVxVyN x y n) s))
      ∧ (4096 ≤ s.i.toNat + x.toNat →
        raisesMemRange (.ldMemVx x) s s.i.toNat (x.toNat + 1) (exec (.ldMemVx x) s)
          ∧ raisesMemRange (.ldVxMem x) s s.i.toNat (x.toNat + 1) (exec (.ldVxMem x) s))

/-! ## Memory -/

/-- R71 and the memory's form: after a write an address reads the value written there and every other address as before,
and the canonical form is kept inside the address space (log entry 5). -/
def Obligations.WriteIsSeenByReadsAndKeepsTheForm : Prop :=
  ∀ (m : Memory) (base : Nat) (bytes : List Byte), Memory.wf m = true → base + bytes.length ≤ 4096 →
    Memory.wf (Memory.writeBytes m base bytes) = true
      ∧ (∀ j, j < bytes.length → some (Memory.read (Memory.writeBytes m base bytes) (base + j)) = bytes[j]?)
      ∧ ∀ a, a < base ∨ base + bytes.length ≤ a → Memory.read (Memory.writeBytes m base bytes) a = Memory.read m a

/-- The canonical form is canonical: two memories in it that read alike at every address are equal (log entry 5). -/
def Obligations.MemoriesThatReadAlikeAreEqual : Prop :=
  ∀ m m' : Memory, Memory.wf m = true → Memory.wf m' = true → (∀ a, Memory.read m a = Memory.read m' a) → m = m'

/-- R73: a block store over the next instruction changes the instruction that runs next (the spec's derivation). -/
def Obligations.StoreIntoNextInstructionIsFetched : Prop :=
  ∀ (x : Nibble) (s : State) (w : Word), s.enabled → fetch s = .ok w → decode w = .ldMemVx x → 1 ≤ x.toNat →
    s.i = s.pc + 2#16 → s.i.toNat + x.toNat < 4096 →
    ∃ t, step s = .next t ∧ t.pc = s.pc + 2#16 ∧ fetch t = .ok (s.getV 0 ++ s.getV 1)

/-! ## The step, faults and the machine's registers -/

/-- R86: when the bytes at PC decode to i, an enabled step is exec of i with PC advanced by 2; if that raised, nothing
but the fault record changes, whose pc is the instruction's address (D14, D18). R87: on an enabled state `execute w` is
exec of the instruction of w, with no fetch and PC as it stands. R232: the host's operations of these names are they. -/
def Obligations.StepRunsTheDecodedInstruction : Prop :=
  (∀ (s : State) (i : Instr), s.enabled → s.pc.toNat + 2 ≤ 4096 →
      decodeBytes [Memory.read s.mem s.pc.toNat, Memory.read s.mem (s.pc.toNat + 1)] = .ok (i, []) →
      (∀ t, exec i (s.setPc (s.pc + 2#16)) = .next t → t.fault = none → step s = .next t)
        ∧ (∀ t r, exec i (s.setPc (s.pc + 2#16)) = .next t → t.fault = some r →
            step s = .next { s with fault := some { r with pc := some s.pc } })
        ∧ (∀ r, exec i (s.setPc (s.pc + 2#16)) = .refused r → step s = .refused r))
    ∧ (∀ (w : Word) (s : State), s.enabled → execute w s = exec (decode w) s)
    ∧ ∀ (w : Word) (s t : State),
      (step s = .next t → perform .step s = .next (t, .nothing))
        ∧ (execute w s = .next t → perform (.execute w) s = .next (t, .nothing))

/-- R63, R86, R222: an enabled step whose fetch reaches outside memory raises MEM_RANGE with no word and the lowest
address outside; PC stays (D3, D14, D15). -/
def Obligations.FetchOutsideMemoryRaises : Prop :=
  ∀ s : State, s.enabled → 4095 ≤ s.pc.toNat →
    ∃ a, lowestOutside s.pc.toNat 2 a
      ∧ step s = .next { s with fault := some ⟨.memRange, some s.pc, none, .address a⟩ }

/-- R86, R87, R224: no step or execute is enabled after a fault or in a key wait (D18; how each stop is answered is the
model's choice, log entry 2). -/
def Obligations.NoStepAfterFaultOrInKeyWait : Prop :=
  ∀ (s : State) (w : Word),
    (∀ r, s.fault = some r → step s = .fault r.kind ∧ execute w s = .refused .haltedByFault)
      ∧ (∀ x, s.fault = none → s.wait = some x →
          step s = .refused .waitingForKey ∧ execute w s = .refused .waitingForKey)

/-- R17, R220, R222: an instruction that raises changes nothing but the fault record, which holds PC, the instruction's
word and the info of its kind (D14, D15). -/
def Obligations.RaisingChangesNothingButTheRecord : Prop :=
  ∀ (i : Instr) (s t : State) (r : FaultRecord), s.fault = none → exec i s = .next t → t.fault = some r →
    onlyFault s t ∧ r.pc = some s.pc ∧ r.word = some (encode i) ∧ r.wf = true

/-- R221: which instructions raise which fault, with the fault's code; no other raises any (D15). -/
def Obligations.EachFaultHasItsInstructions : Prop :=
  ∀ (i : Instr) (s t : State) (r : FaultRecord), s.fault = none → exec i s = .next t → t.fault = some r →
    (r.kind = .memRange ∧ r.kind.code = 1 ∧ ((∃ x y n, i = .drwVxVyN x y n) ∨ (∃ x, i = .ldBVx x) ∨ (∃ x, i = .ldMemVx x)
        ∨ ∃ x, i = .ldVxMem x))
      ∨ (r.kind = .stackOverflow ∧ r.kind.code = 2 ∧ ∃ nnn, i = .call nnn)
      ∨ (r.kind = .stackUnderflow ∧ r.kind.code = 3 ∧ i = .ret)
      ∨ (r.kind = .keyRange ∧ r.kind.code = 4 ∧ ((∃ x, i = .skpVx x) ∨ ∃ x, i = .sknpVx x))

/-- R20, R21: no instruction changes a V register but the one it names as its destination, VF when it is one of the six
flag writers, and V0 to Vx for LD Vx, [I] (D7, D8). -/
def Obligations.RegistersChangeOnlyWhereNamed : Prop :=
  ∀ (i : Instr) (s t : State) (z : Nibble), exec i s = .next t → i.mayWriteReg z = false → t.getV z = s.getV z

/-- R24, R109: no instruction but the jumps, calls, returns and skips changes PC. -/
def Obligations.OnlyControlTransfersChangePc : Prop :=
  ∀ (i : Instr) (s t : State), exec i s = .next t → i.mayWritePc = false → t.pc = s.pc

/-- R23, R25, R29, R30, R33, R36, R155 and the stores of R60: each of I, the stack, the timers, the screen, memory and
the key wait is changed only by the instructions the rules name, and no instruction changes the key vector or KEYMAP. -/
def Obligations.SpecialStateChangesOnlyByItsInstructions : Prop :=
  ∀ (i : Instr) (s t : State), exec i s = .next t →
    t.keys = s.keys ∧ t.keymap = s.keymap
      ∧ (t.sp = s.sp ∧ t.stack = s.stack ∨ i = .ret ∨ ∃ nnn, i = .call nnn)
      ∧ (t.i = s.i ∨ (∃ nnn, i = .ldINnn nnn) ∨ (∃ x, i = .addIVx x) ∨ ∃ x, i = .ldFVx x)
      ∧ (t.dt = s.dt ∨ ∃ x, i = .ldDtVx x)
      ∧ (t.st = s.st ∨ ∃ x, i = .ldStVx x)
      ∧ (t.fb = s.fb ∨ i = .cls ∨ ∃ x y n, i = .drwVxVyN x y n)
      ∧ (sameMemory s t ∨ (∃ x, i = .ldBVx x) ∨ ∃ x, i = .ldMemVx x)
      ∧ (t.wait = s.wait ∨ ∃ x, i = .ldVxK x)

/-! ## The host's operations -/

/-- R260, R261: initialize gives every register, the stack, the timers, memory, the screen, the keys, the fault record
and the key wait their reset values in every state, PC 0x200 (D2), the font (D28) below 0x050, and keeps KEYMAP. -/
def Obligations.InitializeResetsEverythingButTheMapping : Prop :=
  ∀ s : State, ∃ t, perform .initializeCore s = .next (t, .nothing)
    ∧ (∀ z, t.getV z = 0#8) ∧ t.i = 0#16 ∧ t.pc = 0x200#16 ∧ t.sp = 0#8 ∧ (∀ j, 1 ≤ j → j ≤ 16 → t.stackSlot j = 0#16)
    ∧ t.dt = 0#8 ∧ t.st = 0#8 ∧ (∀ x y, t.fb.pixel x y = false) ∧ (∀ k, t.getKey k = false)
    ∧ t.fault = none ∧ t.wait = none ∧ t.keymap = s.keymap
    ∧ (∀ a, 80 ≤ a → Memory.read t.mem a = 0#8)
    ∧ Memory.readBytes t.mem 0x000 5 = [0xF0, 0x90, 0x90, 0x90, 0xF0]
    ∧ Memory.readBytes t.mem 0x005 5 = [0x20, 0x60, 0x20, 0x20, 0x70]
    ∧ Memory.readBytes t.mem 0x00A 5 = [0xF0, 0x10, 0xF0, 0x80, 0xF0]
    ∧ Memory.readBytes t.mem 0x00F 5 = [0xF0, 0x10, 0xF0, 0x10, 0xF0]
    ∧ Memory.readBytes t.mem 0x014 5 = [0x90, 0x90, 0xF0, 0x10, 0x10]
    ∧ Memory.readBytes t.mem 0x019 5 = [0xF0, 0x80, 0xF0, 0x10, 0xF0]
    ∧ Memory.readBytes t.mem 0x01E 5 = [0xF0, 0x80, 0xF0, 0x90, 0xF0]
    ∧ Memory.readBytes t.mem 0x023 5 = [0xF0, 0x10, 0x20, 0x40, 0x40]
    ∧ Memory.readBytes t.mem 0x028 5 = [0xF0, 0x90, 0xF0, 0x90, 0xF0]
    ∧ Memory.readBytes t.mem 0x02D 5 = [0xF0, 0x90, 0xF0, 0x10, 0xF0]
    ∧ Memory.readBytes t.mem 0x032 5 = [0xF0, 0x90, 0xF0, 0x90, 0x90]
    ∧ Memory.readBytes t.mem 0x037 5 = [0xE0, 0x90, 0xE0, 0x90, 0xE0]
    ∧ Memory.readBytes t.mem 0x03C 5 = [0xF0, 0x80, 0x80, 0x80, 0xF0]
    ∧ Memory.readBytes t.mem 0x041 5 = [0xE0, 0x90, 0x90, 0x90, 0xE0]
    ∧ Memory.readBytes t.mem 0x046 5 = [0xF0, 0x80, 0xF0, 0x80, 0xF0]
    ∧ Memory.readBytes t.mem 0x04B 5 = [0xF0, 0x80, 0xF0, 0x80, 0x80]

/-- R68: load copies a program that fits to 0x200 and changes nothing but those bytes; one that does not fit is refused
with LOAD_ERROR and changes nothing. It holds in every state without a fault, a key wait included: when load may come is
the spec's decision D22, in a key wait the model's deduction (log entry 9). -/
def Obligations.LoadCopiesOrReportsAnError : Prop :=
  ∀ (bytes : List Byte) (s : State), s.fault = none →
    (4096 < 0x200 + bytes.length → perform (.load bytes) s = .next (s, .loadError))
      ∧ (0x200 + bytes.length ≤ 4096 →
        ∃ t, perform (.load bytes) s = .next (t, .loaded)
          ∧ (∀ j, j < bytes.length → some (Memory.read t.mem (0x200 + j)) = bytes[j]?)
          ∧ onlyBytes s t 0x200 bytes.length)

/-- R262: after initialize and a load of a program of at least one word, the first step runs that word. -/
def Obligations.BootRunsTheFirstWord : Prop :=
  ∀ (s : State) (hi lo : Byte) (rest : List Byte), 0x200 + (rest.length + 2) ≤ 4096 →
    ∃ t u, perform .initializeCore s = .next (t, .nothing) ∧ perform (.load (hi :: lo :: rest)) t = .next (u, .loaded)
      ∧ step u = settle u (exec (decode (hi ++ lo)) (u.setPc 0x202#16))

/-- R229, R231: a tick of a running core decrements each timer that is not 0 and leaves 0 at 0 (D12). R174, R224, R231,
R232: in every state, a waiting and a faulted one included, the read ports answer the timers, the sound level, whether the
core waits and the fault record (the last two ports: D1), and change nothing. -/
def Obligations.TickCountsDownAndPortsShowIt : Prop :=
  (∀ s : State, s.enabled →
      ∃ t, perform .tick s = .next (t, .nothing) ∧ t.dt.toNat = s.dt.toNat - 1 ∧ t.st.toNat = s.st.toNat - 1
        ∧ { t with dt := s.dt, st := s.st } = s)
    ∧ ∀ s : State, ∃ on waits : Bool,
      perform .timers s = .next (s, .timers s.dt s.st)
        ∧ perform .sound s = .next (s, .sound on) ∧ (on = true ↔ 0 < s.st.toNat)
        ∧ perform .waiting s = .next (s, .waiting waits) ∧ (waits = true ↔ s.wait ≠ none)
        ∧ perform .fault s = .next (s, .fault s.fault)

/-- R230: a tick has no effect while the core waits for a key, nor after a fault (R224; the half about a fault is the
spec's choice, D12 and D14). -/
def Obligations.TickFrozenWhileWaitingOrFaulted : Prop :=
  ∀ s : State, s.wait ≠ none ∨ s.fault ≠ none → perform .tick s = .next (s, .nothing)

/-- R233, R234: outside a wait key_down and key_up write their key and nothing else; a code above 15 is refused with no
transition (D25). -/
def Obligations.KeyEventsWriteTheirKey : Prop :=
  ∀ (k : Nat) (s : State),
    (k < 16 → s.fault = none →
      (s.wait = none → ∃ t, perform (.keyDown k) s = .next (t, .nothing) ∧ t.getKey (BitVec.ofNat 4 k) = true
          ∧ (∀ z, z ≠ BitVec.ofNat 4 k → t.getKey z = s.getKey z) ∧ { t with keys := s.keys } = s)
        ∧ ∃ u, perform (.keyUp k) s = .next (u, .nothing) ∧ u.getKey (BitVec.ofNat 4 k) = false
          ∧ (∀ z, z ≠ BitVec.ofNat 4 k → u.getKey z = s.getKey z) ∧ { u with keys := s.keys } = s)
      ∧ (16 ≤ k → perform (.keyDown k) s = .refused .keyCodeOutOfRange
          ∧ perform (.keyUp k) s = .refused .keyCodeOutOfRange)

/-- R235: set_mapping installs the table and changes nothing else, and map then answers from it, changing nothing: the
code of a host key the table maps once, none for a host key it does not map. The table as a list is the model's choice
(log entry 4), and that both work in every state, a faulted one included, its deduction (log entry 9). -/
def Obligations.MappingIsInstalledAndQueried : Prop :=
  ∀ (t : KeyMap) (h : Nat) (k : Nibble) (s : State),
    ∃ u, perform (.setMapping t) s = .next (u, .nothing) ∧ u = { s with keymap := t }
      ∧ ((h, k) ∈ t → (t.map Prod.fst).Nodup → perform (.map h) u = .next (u, .key (some k)))
      ∧ (h ∉ t.map Prod.fst → perform (.map h) u = .next (u, .key none))

/-- R224, R236, R237: is_set answers a pixel inside the screen in every state; on a machine that has not faulted set_on
and set_off write one pixel inside it, and all three raise SCREEN_BOUNDS (code 5) outside it, with no pc and no word (D14,
D15, D23). On a faulted machine is_set outside is refused and the record stays (how a refusal is answered: log entry 2),
and set_on and set_off have no effect. That the ports work in a key wait, and that a port that raises or has no effect
answers nothing, is the model's (log entry 9). -/
def Obligations.ScreenPortsAreBoundsChecked : Prop :=
  ∀ (x y : Nat) (s : State),
    (∀ (hx : x < 64) (hy : y < 32),
        perform (.isSet x y) s = .next (s, .pixel (s.fb.pixel ⟨x, hx⟩ ⟨y, hy⟩))
          ∧ (s.fault = none →
            ∃ t u, perform (.setOn x y) s = .next (t, .nothing) ∧ perform (.setOff x y) s = .next (u, .nothing)
              ∧ (∀ px py, t.fb.pixel px py = if px.val = x ∧ py.val = y then true else s.fb.pixel px py)
              ∧ (∀ px py, u.fb.pixel px py = if px.val = x ∧ py.val = y then false else s.fb.pixel px py)
              ∧ { t with fb := s.fb } = s ∧ { u with fb := s.fb } = s))
      ∧ (64 ≤ x ∨ 32 ≤ y → s.fault = none →
        ∃ t, t = { s with fault := some ⟨.screenBounds, none, none, .coordinate x y⟩ } ∧ Fault.code .screenBounds = 5
          ∧ perform (.isSet x y) s = .next (t, .nothing) ∧ perform (.setOn x y) s = .next (t, .nothing)
          ∧ perform (.setOff x y) s = .next (t, .nothing))
      ∧ (64 ≤ x ∨ 32 ≤ y → s.fault ≠ none → perform (.isSet x y) s = .refused .haltedByFault)
      ∧ (s.fault ≠ none →
        perform (.setOn x y) s = .next (s, .nothing) ∧ perform (.setOff x y) s = .next (s, .nothing))

/-- R224: while a fault is recorded, every operation of the host but initialize and set_mapping makes no transition or
changes nothing (D14, D18); load and the key events are answered, with no effect (what load answers is log entry 9). -/
def Obligations.FaultedMachineIsFrozen : Prop :=
  (∀ (op : HostOp) (s t : State) (a : Answer), s.fault ≠ none → perform op s = .next (t, a) →
      op = .initializeCore ∨ (∃ m, op = .setMapping m) ∨ t = s)
    ∧ ∀ (k : Nat) (bytes : List Byte) (s : State), s.fault ≠ none →
      (∃ a, perform (.load bytes) s = .next (s, a))
        ∧ (k < 16 → perform (.keyDown k) s = .next (s, .nothing) ∧ perform (.keyUp k) s = .next (s, .nothing))

/-! ## Invariants -/

/-- The invariants hold at reset. -/
def Obligations.ResetMeetsTheInvariants : Prop :=
  State.reset.Inv ∧ State.reset.PcBounded ∧ State.reset.safe = true

/-- Every step keeps the invariant: memory stays canonical and inside the address space, SP stays in 0..16 (R25, R38), a
fault record has the form R221 and R222 describe. -/
def Obligations.StepKeepsTheInvariant : Prop :=
  ∀ s t : State, s.Inv → step s = .next t → t.Inv

/-- Every operation of the host, step and execute among them, keeps the invariant, and so does every sequence of them, in
whatever order and number the host calls them (R232, R242). -/
def Obligations.EveryHostOperationKeepsTheInvariant : Prop :=
  (∀ (op : HostOp) (s t : State) (a : Answer), s.Inv → perform op s = .next (t, a) → t.Inv)
    ∧ ∀ s t : State, s.Inv → s.reaches t → t.Inv

/-- R24: under steps PC never leaves its range: it is at most 0x10FE, every stack slot holds at most 0x1000, and so the
advance PC + 2 never wraps (the spec's derivation). -/
def Obligations.StepKeepsPcInRange : Prop :=
  ∀ s t : State, s.PcBounded → step s = .next t →
    t.PcBounded ∧ (s.pc + 2#16).toNat = s.pc.toNat + 2
end

