-- ==== Sys2Proof/Laws/Decode.lean ====
section
/-! SUPPORT. Fields and words: the fields of a word put together from fields, a word as the fields it is made of, and a
word as its two bytes. -/

namespace Sys2Proof

/-- The fields of a word of format N. -/
theorem wordN_fields (op : Nibble) (nnn : Addr) : opField (wordN op nnn) = op ∧ nnnField (wordN op nnn) = nnn := by
  refine ⟨?_, ?_⟩ <;>
  · ext k hk
    simp only [opField, nnnField, wordN, BitVec.getElem_extractLsb', BitVec.getLsbD_append]
    interval_cases k <;> simp

/-- The fields of a word of format XKK. -/
theorem wordXKK_fields (op x : Nibble) (kk : Byte) :
    opField (wordXKK op x kk) = op ∧ xField (wordXKK op x kk) = x ∧ kkField (wordXKK op x kk) = kk := by
  refine ⟨?_, ?_, ?_⟩ <;>
  · ext k hk
    simp only [opField, xField, kkField, wordXKK, BitVec.getElem_extractLsb', BitVec.getLsbD_append]
    interval_cases k <;> simp

/-- The fields of a word of format XYN. -/
theorem wordXYN_fields (op x y n : Nibble) :
    opField (wordXYN op x y n) = op ∧ xField (wordXYN op x y n) = x ∧ yField (wordXYN op x y n) = y
      ∧ nField (wordXYN op x y n) = n := by
  refine ⟨?_, ?_, ?_, ?_⟩ <;>
  · ext k hk
    simp only [opField, xField, yField, nField, wordXYN, BitVec.getElem_extractLsb', BitVec.getLsbD_append]
    interval_cases k <;> simp

/-- A word is its format-N fields. -/
theorem wordN_of_fields (w : Word) : wordN (opField w) (nnnField w) = w := by
  apply BitVec.eq_of_getLsbD_eq
  intro k hk
  simp only [opField, nnnField, wordN, BitVec.getLsbD_append, BitVec.getLsbD_extractLsb']
  interval_cases k <;> simp

/-- A word is its format-XKK fields. -/
theorem wordXKK_of_fields (w : Word) : wordXKK (opField w) (xField w) (kkField w) = w := by
  apply BitVec.eq_of_getLsbD_eq
  intro k hk
  simp only [opField, xField, kkField, wordXKK, BitVec.getLsbD_append, BitVec.getLsbD_extractLsb']
  interval_cases k <;> simp

/-- A word is its format-XYN fields. -/
theorem wordXYN_of_fields (w : Word) : wordXYN (opField w) (xField w) (yField w) (nField w) = w := by
  apply BitVec.eq_of_getLsbD_eq
  intro k hk
  simp only [opField, xField, yField, nField, wordXYN, BitVec.getLsbD_append, BitVec.getLsbD_extractLsb']
  interval_cases k <;> simp

/-- Two words of format N are equal only with the same fields. -/
theorem wordN_inj {op op' : Nibble} {nnn nnn' : Addr} (h : wordN op nnn = wordN op' nnn') : op = op' ∧ nnn = nnn' := by
  have ho := congrArg opField h
  have hn := congrArg nnnField h
  rw [(wordN_fields op nnn).1, (wordN_fields op' nnn').1] at ho
  rw [(wordN_fields op nnn).2, (wordN_fields op' nnn').2] at hn
  exact ⟨ho, hn⟩

/-- A word is its two bytes, high byte first (R63). -/
theorem wordOfBytes_bytes (w : Word) : wordOfBytes (highByte w) (lowByte w) = w := by
  apply BitVec.eq_of_getLsbD_eq
  intro k hk
  simp only [wordOfBytes, highByte, lowByte, BitVec.getLsbD_append, BitVec.getLsbD_extractLsb']
  interval_cases k <;> simp

/-- Two bytes and nothing else decode to the instruction of their big-endian word. -/
theorem decodeBytes_pair (hi lo : Byte) : decodeBytes [hi, lo] = .ok (decode (wordOfBytes hi lo), []) := rfl

end Sys2Proof
end

