-- ==== Sys2Proof/Laws/Memory.lean ====
section
/-! SUPPORT. The laws of memory: a read after a write, and that every memory operation keeps the canonical form. -/

namespace Sys2Proof.Machine

/-! ## Reading after writing -/

theorem Memory.find_insert (m : Memory) (a b : Nat) (v : Byte) :
    Memory.find b (Memory.insert a v m) = if b = a then some v else Memory.find b m := by
  induction m with
  | nil => by_cases h : b = a <;> simp [Memory.insert, Memory.find, h]
  | cons c m ih =>
    obtain ⟨k, w⟩ := c
    by_cases h1 : a < k
    · by_cases h : b = a <;> simp [Memory.insert, Memory.find, h1, h]
    · by_cases h2 : a = k
      · subst h2
        by_cases h : b = a <;> simp [Memory.insert, Memory.find, h]
      · by_cases h3 : b = k
        · subst h3
          simp [Memory.insert, Memory.find, h1, h2, Ne.symm h2]
        · simp [Memory.insert, Memory.find, h1, h2, h3, ih]

theorem Memory.find_erase (m : Memory) (a b : Nat) :
    Memory.find b (Memory.erase a m) = if b = a then none else Memory.find b m := by
  induction m with
  | nil => by_cases h : b = a <;> simp [Memory.erase, Memory.find, h]
  | cons c m ih =>
    obtain ⟨k, w⟩ := c
    simp only [Memory.erase] at ih ⊢
    by_cases hk : k = a
    · subst hk
      by_cases hb : b = k <;> simp_all [Memory.find]
    · by_cases hb : b = k
      · subst hb
        simp [Memory.find, hk]
      · simp [hk, Memory.find, hb, ih]

/-- A read after a write: the value written at that address, the old value anywhere else. -/
theorem Memory.read_write (m : Memory) (a b : Nat) (v : Byte) :
    Memory.read (Memory.write m a v) b = if b = a then v else Memory.read m b := by
  unfold Memory.read Memory.write
  by_cases hv : v = resetByte a
  · by_cases hb : b = a <;> simp [hv, Memory.find_erase, hb]
  · by_cases hb : b = a <;> simp [hv, Memory.find_insert, hb]

@[simp] theorem Memory.read_write_same (m : Memory) (a : Nat) (v : Byte) :
    Memory.read (Memory.write m a v) a = v := by
  simp [Memory.read_write]

theorem Memory.read_write_other (m : Memory) {a b : Nat} (v : Byte) (h : b ≠ a) :
    Memory.read (Memory.write m a v) b = Memory.read m b := by
  simp [Memory.read_write, h]

/-- A read after a run of writes: the byte stored there inside the run, the old value outside it. -/
theorem Memory.read_writeBytes (bs : List Byte) (m : Memory) (a b : Nat) :
    Memory.read (Memory.writeBytes m a bs) b
      = if a ≤ b ∧ b < a + bs.length then bs.getD (b - a) 0#8 else Memory.read m b := by
  induction bs generalizing m a with
  | nil => simp [Memory.writeBytes]
  | cons x bs ih =>
    rw [Memory.writeBytes, ih, Memory.read_write]
    simp only [List.length_cons]
    by_cases h : b = a
    · subst h
      simp
    · by_cases h1 : a + 1 ≤ b ∧ b < a + 1 + bs.length
      · have e : b - a = (b - (a + 1)) + 1 := by omega
        rw [if_pos h1, if_pos (by omega), e, List.getD_cons_succ]
      · rw [if_neg h1, if_neg h, if_neg (by omega)]

@[simp] theorem Memory.readBytes_length (m : Memory) (a n : Nat) : (Memory.readBytes m a n).length = n := by
  induction n generalizing a with
  | zero => rfl
  | succ n ih => simp [Memory.readBytes, ih]

/-- Byte k of a run of reads is the byte at address a + k. -/
theorem Memory.readBytes_getD (m : Memory) (a n k : Nat) (h : k < n) :
    (Memory.readBytes m a n).getD k 0#8 = Memory.read m (a + k) := by
  induction n generalizing a k with
  | zero => omega
  | succ n ih =>
    cases k with
    | zero => simp [Memory.readBytes]
    | succ k => rw [Memory.readBytes, List.getD_cons_succ, ih _ _ (by omega)]; congr 1; omega

/-! ## The canonical form -/

theorem Memory.mem_insert {m : Memory} {a : Nat} {v : Byte} {c : Host.Cell} (h : c ∈ Memory.insert a v m) :
    c = (a, v) ∨ c ∈ m := by
  induction m with
  | nil => simpa [Memory.insert] using h
  | cons d m ih =>
    obtain ⟨k, w⟩ := d
    unfold Memory.insert at h
    split at h
    · simpa using h
    · split at h
      · rcases List.mem_cons.mp h with h | h
        · exact .inl h
        · exact .inr (List.mem_cons_of_mem _ h)
      · rcases List.mem_cons.mp h with h | h
        · exact .inr (h ▸ List.mem_cons_self)
        · exact (ih h).imp id (List.mem_cons_of_mem _)

theorem Memory.wf_cons {a : Nat} {v : Byte} {m : Memory} :
    Memory.wf ((a, v) :: m) = true
      ↔ a < Config.memSize ∧ v ≠ resetByte a ∧ (∀ c ∈ m, a < c.1) ∧ Memory.wf m = true := by
  simp [Memory.wf, and_assoc]

theorem Memory.wf_insert {m : Memory} {a : Nat} {v : Byte} (h : Memory.wf m = true) (ha : a < Config.memSize)
    (hv : v ≠ resetByte a) : Memory.wf (Memory.insert a v m) = true := by
  induction m with
  | nil => simp only [Memory.insert]; exact Memory.wf_cons.mpr ⟨ha, hv, by simp, rfl⟩
  | cons d m ih =>
    obtain ⟨k, w⟩ := d
    obtain ⟨hk, hw, hall, hm⟩ := Memory.wf_cons.mp h
    unfold Memory.insert
    split
    · rename_i hlt
      refine Memory.wf_cons.mpr ⟨ha, hv, ?_, h⟩
      intro c hc
      rcases List.mem_cons.mp hc with hc | hc
      · simpa [hc] using hlt
      · exact Nat.lt_trans hlt (hall c hc)
    · split
      · rename_i he
        subst he
        exact Memory.wf_cons.mpr ⟨ha, hv, hall, hm⟩
      · refine Memory.wf_cons.mpr ⟨hk, hw, ?_, ih hm⟩
        intro c hc
        rcases Memory.mem_insert hc with hc | hc
        · simp only [hc]; omega
        · exact hall c hc

theorem Memory.wf_erase {m : Memory} (a : Nat) (h : Memory.wf m = true) : Memory.wf (Memory.erase a m) = true := by
  induction m with
  | nil => rfl
  | cons d m ih =>
    obtain ⟨k, w⟩ := d
    obtain ⟨hk, hw, hall, hm⟩ := Memory.wf_cons.mp h
    simp only [Memory.erase] at ih ⊢
    by_cases hka : k = a
    · simpa [hka] using ih hm
    · simp only [ne_eq, hka, not_false_eq_true, bne_iff_ne, List.filter_cons_of_pos]
      exact Memory.wf_cons.mpr ⟨hk, hw, fun c hc => hall c (List.mem_of_mem_filter hc), ih hm⟩

/-- A write inside the address space keeps the canonical form. -/
theorem Memory.wf_write {m : Memory} {a : Nat} (v : Byte) (h : Memory.wf m = true) (ha : a < Config.memSize) :
    Memory.wf (Memory.write m a v) = true := by
  unfold Memory.write
  split
  · exact Memory.wf_erase a h
  · exact Memory.wf_insert h ha ‹_›

/-- A run of writes inside the address space keeps the canonical form. -/
theorem Memory.wf_writeBytes {m : Memory} {a : Nat} (bs : List Byte) (h : Memory.wf m = true)
    (ha : bs = [] ∨ a + bs.length ≤ Config.memSize) : Memory.wf (Memory.writeBytes m a bs) = true := by
  induction bs generalizing m a with
  | nil => exact h
  | cons b bs ih =>
    have hl : a + (bs.length + 1) ≤ Config.memSize := by simpa using ha
    exact ih (Memory.wf_write b h (by omega)) (.inr (by omega))

/-- At reset memory has its canonical form. -/
theorem Memory.wf_reset : Memory.wf State.reset.mem = true := rfl

end Sys2Proof.Machine
end

