-- ==== Sys2Proof/Laws/Operands.lean ====
section
/-! SUPPORT. What the operand forms and the flag computations give, as numbers. -/

namespace Sys2Proof.Machine

@[simp] theorem addrWord_toNat (nnn : Addr) : (addrWord nnn).toNat = nnn.toNat := by
  have := nnn.isLt
  simp only [addrWord, BitVec.toNat_setWidth]
  omega

@[simp] theorem byteWord_toNat (b : Byte) : (byteWord b).toNat = b.toNat := by
  have := b.isLt
  simp only [byteWord, BitVec.toNat_setWidth]
  omega

/-- The offset jump's target never wraps: it is at most 0x10FE (R108). -/
@[simp] theorem offsetTarget_toNat (nnn : Addr) (v0 : Byte) : (offsetTarget nnn v0).toNat = nnn.toNat + v0.toNat := by
  have := nnn.isLt
  have := v0.isLt
  simp only [offsetTarget, BitVec.toNat_add, addrWord_toNat, byteWord_toNat]
  omega

@[simp] theorem glyphAddress_toNat (b : Byte) : (glyphAddress b).toNat = b.toNat * 5 := by
  have := b.isLt
  simp only [glyphAddress, Config.fontBase, Config.glyphHeight, BitVec.toNat_ofNat]
  omega

@[simp] theorem carryFlag_toNat (a b : Byte) : (carryFlag a b).toNat = if 255 < a.toNat + b.toNat then 1 else 0 := by
  unfold carryFlag
  split <;> rfl

@[simp] theorem greaterFlag_toNat (a b : Byte) : (greaterFlag a b).toNat = if b.toNat < a.toNat then 1 else 0 := by
  unfold greaterFlag
  split <;> rfl

@[simp] theorem lowBitFlag_toNat (a : Byte) : (lowBitFlag a).toNat = a.toNat % 2 := by
  revert a
  decide

@[simp] theorem highBitFlag_toNat (a : Byte) : (highBitFlag a).toNat = if 128 ≤ a.toNat then 0x80 else 0 := by
  revert a
  decide

/-- A drawn byte is at most 254 (R13). -/
theorem drawnByte_le (n : Nat) : (drawnByte n).toNat ≤ 254 := by
  have := (Config.randomDraw n).isLt
  simp only [drawnByte, BitVec.toNat_ofNat]
  omega

end Sys2Proof.Machine
end

