-- ==== Sys2Proof/Laws/Screen.lean ====
section
/-! SUPPORT. The laws of the framebuffer: a pixel read after a pixel write, a blank screen, and what one bit of a sprite
does. -/

namespace Sys2Proof.Machine

/-- A pixel read after a pixel write. -/
theorem Screen.pixel_setPixel (fb : Screen) (x x' : Fin 64) (y y' : Fin 32) (on : Bool) :
    (fb.setPixel x y on).pixel x' y' = if x' = x ∧ y' = y then on else fb.pixel x' y' := by
  unfold Screen.pixel Screen.setPixel
  simp only [Vector.get_eq_getElem, Vector.getElem_set, Fin.val_inj]
  by_cases hy : y = y'
  · subst hy
    simp only [if_pos, and_true, Vector.getElem_set, Fin.val_inj, eq_comm]
  · have hy' : ¬ (y' = y) := fun h => hy h.symm
    simp [hy, hy']

/-- Every pixel of a cleared screen is off (R150). -/
@[simp] theorem Screen.pixel_blank (x : Fin 64) (y : Fin 32) : Screen.blank.pixel x y = false := by
  simp [Screen.pixel, Screen.blank, Vector.get_eq_getElem]

/-- One bit of a sprite: its pixel is toggled when the bit is 1, every other pixel is as before. -/
theorem drawBit_pixel (d : Drawing) (x y : Nat) (on : Bool) (x' : Fin 64) (y' : Fin 32) :
    (drawBit d x y on).fb.pixel x' y'
      = (d.fb.pixel x' y' ^^ (on && decide (x' = wrapX x) && decide (y' = wrapY y))) := by
  unfold drawBit
  cases on with
  | false => simp
  | true =>
    simp only [if_true, Screen.pixel_setPixel]
    split
    · rename_i h; simp [h.1, h.2]
    · rename_i h
      by_cases hx : x' = wrapX x
      · have hy : ¬ (y' = wrapY y) := fun e => h ⟨hx, e⟩
        simp [hx, hy]
      · simp [hx]

/-- One bit of a sprite collides exactly when it is 1 and its pixel is on (R151). -/
theorem drawBit_hit (d : Drawing) (x y : Nat) (on : Bool) :
    (drawBit d x y on).hit = (d.hit || (on && d.fb.pixel (wrapX x) (wrapY y))) := by
  unfold drawBit
  cases on <;> simp

end Sys2Proof.Machine
end

