-- ==== Sys2Proof/Laws/State.lean ====
section
/-! SUPPORT. What each setter of the state does to each field, true by rfl; and register, key and stack-slot reads after
the writes. No later proof unfolds a record update. -/

namespace Sys2Proof.Machine

variable (s : State)

/-! ## setV -/

@[simp] theorem State.setV_v (x : Nibble) (b : Byte) : (s.setV x b).v = s.v.set x.toNat b x.isLt := rfl
@[simp] theorem State.setV_i (x : Nibble) (b : Byte) : (s.setV x b).i = s.i := rfl
@[simp] theorem State.setV_pc (x : Nibble) (b : Byte) : (s.setV x b).pc = s.pc := rfl
@[simp] theorem State.setV_sp (x : Nibble) (b : Byte) : (s.setV x b).sp = s.sp := rfl
@[simp] theorem State.setV_stack (x : Nibble) (b : Byte) : (s.setV x b).stack = s.stack := rfl
@[simp] theorem State.setV_dt (x : Nibble) (b : Byte) : (s.setV x b).dt = s.dt := rfl
@[simp] theorem State.setV_st (x : Nibble) (b : Byte) : (s.setV x b).st = s.st := rfl
@[simp] theorem State.setV_mem (x : Nibble) (b : Byte) : (s.setV x b).mem = s.mem := rfl
@[simp] theorem State.setV_fb (x : Nibble) (b : Byte) : (s.setV x b).fb = s.fb := rfl
@[simp] theorem State.setV_keys (x : Nibble) (b : Byte) : (s.setV x b).keys = s.keys := rfl
@[simp] theorem State.setV_fault (x : Nibble) (b : Byte) : (s.setV x b).fault = s.fault := rfl
@[simp] theorem State.setV_wait (x : Nibble) (b : Byte) : (s.setV x b).wait = s.wait := rfl
@[simp] theorem State.setV_keymap (x : Nibble) (b : Byte) : (s.setV x b).keymap = s.keymap := rfl
@[simp] theorem State.setV_draws (x : Nibble) (b : Byte) : (s.setV x b).draws = s.draws := rfl
@[simp] theorem State.setV_getKey (x : Nibble) (b : Byte) (z : Nibble) : (s.setV x b).getKey z = s.getKey z := rfl
@[simp] theorem State.setV_stackSlot (x : Nibble) (b : Byte) (j : Nat) : (s.setV x b).stackSlot j = s.stackSlot j := rfl

/-! ## setRegs -/

@[simp] theorem State.setRegs_v (v : Vector Byte 16) : (s.setRegs v).v = v := rfl
@[simp] theorem State.setRegs_i (v : Vector Byte 16) : (s.setRegs v).i = s.i := rfl
@[simp] theorem State.setRegs_pc (v : Vector Byte 16) : (s.setRegs v).pc = s.pc := rfl
@[simp] theorem State.setRegs_sp (v : Vector Byte 16) : (s.setRegs v).sp = s.sp := rfl
@[simp] theorem State.setRegs_stack (v : Vector Byte 16) : (s.setRegs v).stack = s.stack := rfl
@[simp] theorem State.setRegs_dt (v : Vector Byte 16) : (s.setRegs v).dt = s.dt := rfl
@[simp] theorem State.setRegs_st (v : Vector Byte 16) : (s.setRegs v).st = s.st := rfl
@[simp] theorem State.setRegs_mem (v : Vector Byte 16) : (s.setRegs v).mem = s.mem := rfl
@[simp] theorem State.setRegs_fb (v : Vector Byte 16) : (s.setRegs v).fb = s.fb := rfl
@[simp] theorem State.setRegs_keys (v : Vector Byte 16) : (s.setRegs v).keys = s.keys := rfl
@[simp] theorem State.setRegs_fault (v : Vector Byte 16) : (s.setRegs v).fault = s.fault := rfl
@[simp] theorem State.setRegs_wait (v : Vector Byte 16) : (s.setRegs v).wait = s.wait := rfl
@[simp] theorem State.setRegs_keymap (v : Vector Byte 16) : (s.setRegs v).keymap = s.keymap := rfl
@[simp] theorem State.setRegs_draws (v : Vector Byte 16) : (s.setRegs v).draws = s.draws := rfl
@[simp] theorem State.setRegs_getKey (v : Vector Byte 16) (z : Nibble) : (s.setRegs v).getKey z = s.getKey z := rfl
@[simp] theorem State.setRegs_stackSlot (v : Vector Byte 16) (j : Nat) : (s.setRegs v).stackSlot j = s.stackSlot j := rfl

/-! ## setI -/

@[simp] theorem State.setI_v (a : Word) : (s.setI a).v = s.v := rfl
@[simp] theorem State.setI_i (a : Word) : (s.setI a).i = a := rfl
@[simp] theorem State.setI_pc (a : Word) : (s.setI a).pc = s.pc := rfl
@[simp] theorem State.setI_sp (a : Word) : (s.setI a).sp = s.sp := rfl
@[simp] theorem State.setI_stack (a : Word) : (s.setI a).stack = s.stack := rfl
@[simp] theorem State.setI_dt (a : Word) : (s.setI a).dt = s.dt := rfl
@[simp] theorem State.setI_st (a : Word) : (s.setI a).st = s.st := rfl
@[simp] theorem State.setI_mem (a : Word) : (s.setI a).mem = s.mem := rfl
@[simp] theorem State.setI_fb (a : Word) : (s.setI a).fb = s.fb := rfl
@[simp] theorem State.setI_keys (a : Word) : (s.setI a).keys = s.keys := rfl
@[simp] theorem State.setI_fault (a : Word) : (s.setI a).fault = s.fault := rfl
@[simp] theorem State.setI_wait (a : Word) : (s.setI a).wait = s.wait := rfl
@[simp] theorem State.setI_keymap (a : Word) : (s.setI a).keymap = s.keymap := rfl
@[simp] theorem State.setI_draws (a : Word) : (s.setI a).draws = s.draws := rfl
@[simp] theorem State.setI_getV (a : Word) (z : Nibble) : (s.setI a).getV z = s.getV z := rfl
@[simp] theorem State.setI_getKey (a : Word) (z : Nibble) : (s.setI a).getKey z = s.getKey z := rfl
@[simp] theorem State.setI_stackSlot (a : Word) (j : Nat) : (s.setI a).stackSlot j = s.stackSlot j := rfl

/-! ## setPc -/

@[simp] theorem State.setPc_v (a : Word) : (s.setPc a).v = s.v := rfl
@[simp] theorem State.setPc_i (a : Word) : (s.setPc a).i = s.i := rfl
@[simp] theorem State.setPc_pc (a : Word) : (s.setPc a).pc = a := rfl
@[simp] theorem State.setPc_sp (a : Word) : (s.setPc a).sp = s.sp := rfl
@[simp] theorem State.setPc_stack (a : Word) : (s.setPc a).stack = s.stack := rfl
@[simp] theorem State.setPc_dt (a : Word) : (s.setPc a).dt = s.dt := rfl
@[simp] theorem State.setPc_st (a : Word) : (s.setPc a).st = s.st := rfl
@[simp] theorem State.setPc_mem (a : Word) : (s.setPc a).mem = s.mem := rfl
@[simp] theorem State.setPc_fb (a : Word) : (s.setPc a).fb = s.fb := rfl
@[simp] theorem State.setPc_keys (a : Word) : (s.setPc a).keys = s.keys := rfl
@[simp] theorem State.setPc_fault (a : Word) : (s.setPc a).fault = s.fault := rfl
@[simp] theorem State.setPc_wait (a : Word) : (s.setPc a).wait = s.wait := rfl
@[simp] theorem State.setPc_keymap (a : Word) : (s.setPc a).keymap = s.keymap := rfl
@[simp] theorem State.setPc_draws (a : Word) : (s.setPc a).draws = s.draws := rfl
@[simp] theorem State.setPc_getV (a : Word) (z : Nibble) : (s.setPc a).getV z = s.getV z := rfl
@[simp] theorem State.setPc_getKey (a : Word) (z : Nibble) : (s.setPc a).getKey z = s.getKey z := rfl
@[simp] theorem State.setPc_stackSlot (a : Word) (j : Nat) : (s.setPc a).stackSlot j = s.stackSlot j := rfl

/-! ## setStack -/

@[simp] theorem State.setStack_v (p : Byte) (k : Vector Word 16) : (s.setStack p k).v = s.v := rfl
@[simp] theorem State.setStack_i (p : Byte) (k : Vector Word 16) : (s.setStack p k).i = s.i := rfl
@[simp] theorem State.setStack_pc (p : Byte) (k : Vector Word 16) : (s.setStack p k).pc = s.pc := rfl
@[simp] theorem State.setStack_sp (p : Byte) (k : Vector Word 16) : (s.setStack p k).sp = p := rfl
@[simp] theorem State.setStack_stack (p : Byte) (k : Vector Word 16) : (s.setStack p k).stack = k := rfl
@[simp] theorem State.setStack_dt (p : Byte) (k : Vector Word 16) : (s.setStack p k).dt = s.dt := rfl
@[simp] theorem State.setStack_st (p : Byte) (k : Vector Word 16) : (s.setStack p k).st = s.st := rfl
@[simp] theorem State.setStack_mem (p : Byte) (k : Vector Word 16) : (s.setStack p k).mem = s.mem := rfl
@[simp] theorem State.setStack_fb (p : Byte) (k : Vector Word 16) : (s.setStack p k).fb = s.fb := rfl
@[simp] theorem State.setStack_keys (p : Byte) (k : Vector Word 16) : (s.setStack p k).keys = s.keys := rfl
@[simp] theorem State.setStack_fault (p : Byte) (k : Vector Word 16) : (s.setStack p k).fault = s.fault := rfl
@[simp] theorem State.setStack_wait (p : Byte) (k : Vector Word 16) : (s.setStack p k).wait = s.wait := rfl
@[simp] theorem State.setStack_keymap (p : Byte) (k : Vector Word 16) : (s.setStack p k).keymap = s.keymap := rfl
@[simp] theorem State.setStack_draws (p : Byte) (k : Vector Word 16) : (s.setStack p k).draws = s.draws := rfl
@[simp] theorem State.setStack_getV (p : Byte) (k : Vector Word 16) (z : Nibble) : (s.setStack p k).getV z = s.getV z := rfl
@[simp] theorem State.setStack_getKey (p : Byte) (k : Vector Word 16) (z : Nibble) : (s.setStack p k).getKey z = s.getKey z := rfl

/-! ## setDt -/

@[simp] theorem State.setDt_v (b : Byte) : (s.setDt b).v = s.v := rfl
@[simp] theorem State.setDt_i (b : Byte) : (s.setDt b).i = s.i := rfl
@[simp] theorem State.setDt_pc (b : Byte) : (s.setDt b).pc = s.pc := rfl
@[simp] theorem State.setDt_sp (b : Byte) : (s.setDt b).sp = s.sp := rfl
@[simp] theorem State.setDt_stack (b : Byte) : (s.setDt b).stack = s.stack := rfl
@[simp] theorem State.setDt_dt (b : Byte) : (s.setDt b).dt = b := rfl
@[simp] theorem State.setDt_st (b : Byte) : (s.setDt b).st = s.st := rfl
@[simp] theorem State.setDt_mem (b : Byte) : (s.setDt b).mem = s.mem := rfl
@[simp] theorem State.setDt_fb (b : Byte) : (s.setDt b).fb = s.fb := rfl
@[simp] theorem State.setDt_keys (b : Byte) : (s.setDt b).keys = s.keys := rfl
@[simp] theorem State.setDt_fault (b : Byte) : (s.setDt b).fault = s.fault := rfl
@[simp] theorem State.setDt_wait (b : Byte) : (s.setDt b).wait = s.wait := rfl
@[simp] theorem State.setDt_keymap (b : Byte) : (s.setDt b).keymap = s.keymap := rfl
@[simp] theorem State.setDt_draws (b : Byte) : (s.setDt b).draws = s.draws := rfl
@[simp] theorem State.setDt_getV (b : Byte) (z : Nibble) : (s.setDt b).getV z = s.getV z := rfl
@[simp] theorem State.setDt_getKey (b : Byte) (z : Nibble) : (s.setDt b).getKey z = s.getKey z := rfl
@[simp] theorem State.setDt_stackSlot (b : Byte) (j : Nat) : (s.setDt b).stackSlot j = s.stackSlot j := rfl

/-! ## setSt -/

@[simp] theorem State.setSt_v (b : Byte) : (s.setSt b).v = s.v := rfl
@[simp] theorem State.setSt_i (b : Byte) : (s.setSt b).i = s.i := rfl
@[simp] theorem State.setSt_pc (b : Byte) : (s.setSt b).pc = s.pc := rfl
@[simp] theorem State.setSt_sp (b : Byte) : (s.setSt b).sp = s.sp := rfl
@[simp] theorem State.setSt_stack (b : Byte) : (s.setSt b).stack = s.stack := rfl
@[simp] theorem State.setSt_dt (b : Byte) : (s.setSt b).dt = s.dt := rfl
@[simp] theorem State.setSt_st (b : Byte) : (s.setSt b).st = b := rfl
@[simp] theorem State.setSt_mem (b : Byte) : (s.setSt b).mem = s.mem := rfl
@[simp] theorem State.setSt_fb (b : Byte) : (s.setSt b).fb = s.fb := rfl
@[simp] theorem State.setSt_keys (b : Byte) : (s.setSt b).keys = s.keys := rfl
@[simp] theorem State.setSt_fault (b : Byte) : (s.setSt b).fault = s.fault := rfl
@[simp] theorem State.setSt_wait (b : Byte) : (s.setSt b).wait = s.wait := rfl
@[simp] theorem State.setSt_keymap (b : Byte) : (s.setSt b).keymap = s.keymap := rfl
@[simp] theorem State.setSt_draws (b : Byte) : (s.setSt b).draws = s.draws := rfl
@[simp] theorem State.setSt_getV (b : Byte) (z : Nibble) : (s.setSt b).getV z = s.getV z := rfl
@[simp] theorem State.setSt_getKey (b : Byte) (z : Nibble) : (s.setSt b).getKey z = s.getKey z := rfl
@[simp] theorem State.setSt_stackSlot (b : Byte) (j : Nat) : (s.setSt b).stackSlot j = s.stackSlot j := rfl

/-! ## setMem -/

@[simp] theorem State.setMem_v (m : Memory) : (s.setMem m).v = s.v := rfl
@[simp] theorem State.setMem_i (m : Memory) : (s.setMem m).i = s.i := rfl
@[simp] theorem State.setMem_pc (m : Memory) : (s.setMem m).pc = s.pc := rfl
@[simp] theorem State.setMem_sp (m : Memory) : (s.setMem m).sp = s.sp := rfl
@[simp] theorem State.setMem_stack (m : Memory) : (s.setMem m).stack = s.stack := rfl
@[simp] theorem State.setMem_dt (m : Memory) : (s.setMem m).dt = s.dt := rfl
@[simp] theorem State.setMem_st (m : Memory) : (s.setMem m).st = s.st := rfl
@[simp] theorem State.setMem_mem (m : Memory) : (s.setMem m).mem = m := rfl
@[simp] theorem State.setMem_fb (m : Memory) : (s.setMem m).fb = s.fb := rfl
@[simp] theorem State.setMem_keys (m : Memory) : (s.setMem m).keys = s.keys := rfl
@[simp] theorem State.setMem_fault (m : Memory) : (s.setMem m).fault = s.fault := rfl
@[simp] theorem State.setMem_wait (m : Memory) : (s.setMem m).wait = s.wait := rfl
@[simp] theorem State.setMem_keymap (m : Memory) : (s.setMem m).keymap = s.keymap := rfl
@[simp] theorem State.setMem_draws (m : Memory) : (s.setMem m).draws = s.draws := rfl
@[simp] theorem State.setMem_getV (m : Memory) (z : Nibble) : (s.setMem m).getV z = s.getV z := rfl
@[simp] theorem State.setMem_getKey (m : Memory) (z : Nibble) : (s.setMem m).getKey z = s.getKey z := rfl
@[simp] theorem State.setMem_stackSlot (m : Memory) (j : Nat) : (s.setMem m).stackSlot j = s.stackSlot j := rfl

/-! ## setFb -/

@[simp] theorem State.setFb_v (fb : Screen) : (s.setFb fb).v = s.v := rfl
@[simp] theorem State.setFb_i (fb : Screen) : (s.setFb fb).i = s.i := rfl
@[simp] theorem State.setFb_pc (fb : Screen) : (s.setFb fb).pc = s.pc := rfl
@[simp] theorem State.setFb_sp (fb : Screen) : (s.setFb fb).sp = s.sp := rfl
@[simp] theorem State.setFb_stack (fb : Screen) : (s.setFb fb).stack = s.stack := rfl
@[simp] theorem State.setFb_dt (fb : Screen) : (s.setFb fb).dt = s.dt := rfl
@[simp] theorem State.setFb_st (fb : Screen) : (s.setFb fb).st = s.st := rfl
@[simp] theorem State.setFb_mem (fb : Screen) : (s.setFb fb).mem = s.mem := rfl
@[simp] theorem State.setFb_fb (fb : Screen) : (s.setFb fb).fb = fb := rfl
@[simp] theorem State.setFb_keys (fb : Screen) : (s.setFb fb).keys = s.keys := rfl
@[simp] theorem State.setFb_fault (fb : Screen) : (s.setFb fb).fault = s.fault := rfl
@[simp] theorem State.setFb_wait (fb : Screen) : (s.setFb fb).wait = s.wait := rfl
@[simp] theorem State.setFb_keymap (fb : Screen) : (s.setFb fb).keymap = s.keymap := rfl
@[simp] theorem State.setFb_draws (fb : Screen) : (s.setFb fb).draws = s.draws := rfl
@[simp] theorem State.setFb_getV (fb : Screen) (z : Nibble) : (s.setFb fb).getV z = s.getV z := rfl
@[simp] theorem State.setFb_getKey (fb : Screen) (z : Nibble) : (s.setFb fb).getKey z = s.getKey z := rfl
@[simp] theorem State.setFb_stackSlot (fb : Screen) (j : Nat) : (s.setFb fb).stackSlot j = s.stackSlot j := rfl

/-! ## setKey -/

@[simp] theorem State.setKey_v (k : Nibble) (d : Bool) : (s.setKey k d).v = s.v := rfl
@[simp] theorem State.setKey_i (k : Nibble) (d : Bool) : (s.setKey k d).i = s.i := rfl
@[simp] theorem State.setKey_pc (k : Nibble) (d : Bool) : (s.setKey k d).pc = s.pc := rfl
@[simp] theorem State.setKey_sp (k : Nibble) (d : Bool) : (s.setKey k d).sp = s.sp := rfl
@[simp] theorem State.setKey_stack (k : Nibble) (d : Bool) : (s.setKey k d).stack = s.stack := rfl
@[simp] theorem State.setKey_dt (k : Nibble) (d : Bool) : (s.setKey k d).dt = s.dt := rfl
@[simp] theorem State.setKey_st (k : Nibble) (d : Bool) : (s.setKey k d).st = s.st := rfl
@[simp] theorem State.setKey_mem (k : Nibble) (d : Bool) : (s.setKey k d).mem = s.mem := rfl
@[simp] theorem State.setKey_fb (k : Nibble) (d : Bool) : (s.setKey k d).fb = s.fb := rfl
@[simp] theorem State.setKey_keys (k : Nibble) (d : Bool) : (s.setKey k d).keys = s.keys.set k.toNat d k.isLt := rfl
@[simp] theorem State.setKey_fault (k : Nibble) (d : Bool) : (s.setKey k d).fault = s.fault := rfl
@[simp] theorem State.setKey_wait (k : Nibble) (d : Bool) : (s.setKey k d).wait = s.wait := rfl
@[simp] theorem State.setKey_keymap (k : Nibble) (d : Bool) : (s.setKey k d).keymap = s.keymap := rfl
@[simp] theorem State.setKey_draws (k : Nibble) (d : Bool) : (s.setKey k d).draws = s.draws := rfl
@[simp] theorem State.setKey_getV (k : Nibble) (d : Bool) (z : Nibble) : (s.setKey k d).getV z = s.getV z := rfl
@[simp] theorem State.setKey_stackSlot (k : Nibble) (d : Bool) (j : Nat) : (s.setKey k d).stackSlot j = s.stackSlot j := rfl

/-! ## setFault -/

@[simp] theorem State.setFault_v (r : Option FaultRecord) : (s.setFault r).v = s.v := rfl
@[simp] theorem State.setFault_i (r : Option FaultRecord) : (s.setFault r).i = s.i := rfl
@[simp] theorem State.setFault_pc (r : Option FaultRecord) : (s.setFault r).pc = s.pc := rfl
@[simp] theorem State.setFault_sp (r : Option FaultRecord) : (s.setFault r).sp = s.sp := rfl
@[simp] theorem State.setFault_stack (r : Option FaultRecord) : (s.setFault r).stack = s.stack := rfl
@[simp] theorem State.setFault_dt (r : Option FaultRecord) : (s.setFault r).dt = s.dt := rfl
@[simp] theorem State.setFault_st (r : Option FaultRecord) : (s.setFault r).st = s.st := rfl
@[simp] theorem State.setFault_mem (r : Option FaultRecord) : (s.setFault r).mem = s.mem := rfl
@[simp] theorem State.setFault_fb (r : Option FaultRecord) : (s.setFault r).fb = s.fb := rfl
@[simp] theorem State.setFault_keys (r : Option FaultRecord) : (s.setFault r).keys = s.keys := rfl
@[simp] theorem State.setFault_fault (r : Option FaultRecord) : (s.setFault r).fault = r := rfl
@[simp] theorem State.setFault_wait (r : Option FaultRecord) : (s.setFault r).wait = s.wait := rfl
@[simp] theorem State.setFault_keymap (r : Option FaultRecord) : (s.setFault r).keymap = s.keymap := rfl
@[simp] theorem State.setFault_draws (r : Option FaultRecord) : (s.setFault r).draws = s.draws := rfl
@[simp] theorem State.setFault_getV (r : Option FaultRecord) (z : Nibble) : (s.setFault r).getV z = s.getV z := rfl
@[simp] theorem State.setFault_getKey (r : Option FaultRecord) (z : Nibble) : (s.setFault r).getKey z = s.getKey z := rfl
@[simp] theorem State.setFault_stackSlot (r : Option FaultRecord) (j : Nat) : (s.setFault r).stackSlot j = s.stackSlot j := rfl

/-! ## setWait -/

@[simp] theorem State.setWait_v (w : Option Nibble) : (s.setWait w).v = s.v := rfl
@[simp] theorem State.setWait_i (w : Option Nibble) : (s.setWait w).i = s.i := rfl
@[simp] theorem State.setWait_pc (w : Option Nibble) : (s.setWait w).pc = s.pc := rfl
@[simp] theorem State.setWait_sp (w : Option Nibble) : (s.setWait w).sp = s.sp := rfl
@[simp] theorem State.setWait_stack (w : Option Nibble) : (s.setWait w).stack = s.stack := rfl
@[simp] theorem State.setWait_dt (w : Option Nibble) : (s.setWait w).dt = s.dt := rfl
@[simp] theorem State.setWait_st (w : Option Nibble) : (s.setWait w).st = s.st := rfl
@[simp] theorem State.setWait_mem (w : Option Nibble) : (s.setWait w).mem = s.mem := rfl
@[simp] theorem State.setWait_fb (w : Option Nibble) : (s.setWait w).fb = s.fb := rfl
@[simp] theorem State.setWait_keys (w : Option Nibble) : (s.setWait w).keys = s.keys := rfl
@[simp] theorem State.setWait_fault (w : Option Nibble) : (s.setWait w).fault = s.fault := rfl
@[simp] theorem State.setWait_wait (w : Option Nibble) : (s.setWait w).wait = w := rfl
@[simp] theorem State.setWait_keymap (w : Option Nibble) : (s.setWait w).keymap = s.keymap := rfl
@[simp] theorem State.setWait_draws (w : Option Nibble) : (s.setWait w).draws = s.draws := rfl
@[simp] theorem State.setWait_getV (w : Option Nibble) (z : Nibble) : (s.setWait w).getV z = s.getV z := rfl
@[simp] theorem State.setWait_getKey (w : Option Nibble) (z : Nibble) : (s.setWait w).getKey z = s.getKey z := rfl
@[simp] theorem State.setWait_stackSlot (w : Option Nibble) (j : Nat) : (s.setWait w).stackSlot j = s.stackSlot j := rfl

/-! ## setKeymap -/

@[simp] theorem State.setKeymap_v (t : KeyMap) : (s.setKeymap t).v = s.v := rfl
@[simp] theorem State.setKeymap_i (t : KeyMap) : (s.setKeymap t).i = s.i := rfl
@[simp] theorem State.setKeymap_pc (t : KeyMap) : (s.setKeymap t).pc = s.pc := rfl
@[simp] theorem State.setKeymap_sp (t : KeyMap) : (s.setKeymap t).sp = s.sp := rfl
@[simp] theorem State.setKeymap_stack (t : KeyMap) : (s.setKeymap t).stack = s.stack := rfl
@[simp] theorem State.setKeymap_dt (t : KeyMap) : (s.setKeymap t).dt = s.dt := rfl
@[simp] theorem State.setKeymap_st (t : KeyMap) : (s.setKeymap t).st = s.st := rfl
@[simp] theorem State.setKeymap_mem (t : KeyMap) : (s.setKeymap t).mem = s.mem := rfl
@[simp] theorem State.setKeymap_fb (t : KeyMap) : (s.setKeymap t).fb = s.fb := rfl
@[simp] theorem State.setKeymap_keys (t : KeyMap) : (s.setKeymap t).keys = s.keys := rfl
@[simp] theorem State.setKeymap_fault (t : KeyMap) : (s.setKeymap t).fault = s.fault := rfl
@[simp] theorem State.setKeymap_wait (t : KeyMap) : (s.setKeymap t).wait = s.wait := rfl
@[simp] theorem State.setKeymap_keymap (t : KeyMap) : (s.setKeymap t).keymap = t := rfl
@[simp] theorem State.setKeymap_draws (t : KeyMap) : (s.setKeymap t).draws = s.draws := rfl
@[simp] theorem State.setKeymap_getV (t : KeyMap) (z : Nibble) : (s.setKeymap t).getV z = s.getV z := rfl
@[simp] theorem State.setKeymap_getKey (t : KeyMap) (z : Nibble) : (s.setKeymap t).getKey z = s.getKey z := rfl
@[simp] theorem State.setKeymap_stackSlot (t : KeyMap) (j : Nat) : (s.setKeymap t).stackSlot j = s.stackSlot j := rfl

/-! ## setDraws -/

@[simp] theorem State.setDraws_v (n : Nat) : (s.setDraws n).v = s.v := rfl
@[simp] theorem State.setDraws_i (n : Nat) : (s.setDraws n).i = s.i := rfl
@[simp] theorem State.setDraws_pc (n : Nat) : (s.setDraws n).pc = s.pc := rfl
@[simp] theorem State.setDraws_sp (n : Nat) : (s.setDraws n).sp = s.sp := rfl
@[simp] theorem State.setDraws_stack (n : Nat) : (s.setDraws n).stack = s.stack := rfl
@[simp] theorem State.setDraws_dt (n : Nat) : (s.setDraws n).dt = s.dt := rfl
@[simp] theorem State.setDraws_st (n : Nat) : (s.setDraws n).st = s.st := rfl
@[simp] theorem State.setDraws_mem (n : Nat) : (s.setDraws n).mem = s.mem := rfl
@[simp] theorem State.setDraws_fb (n : Nat) : (s.setDraws n).fb = s.fb := rfl
@[simp] theorem State.setDraws_keys (n : Nat) : (s.setDraws n).keys = s.keys := rfl
@[simp] theorem State.setDraws_fault (n : Nat) : (s.setDraws n).fault = s.fault := rfl
@[simp] theorem State.setDraws_wait (n : Nat) : (s.setDraws n).wait = s.wait := rfl
@[simp] theorem State.setDraws_keymap (n : Nat) : (s.setDraws n).keymap = s.keymap := rfl
@[simp] theorem State.setDraws_draws (n : Nat) : (s.setDraws n).draws = n := rfl
@[simp] theorem State.setDraws_getV (n : Nat) (z : Nibble) : (s.setDraws n).getV z = s.getV z := rfl
@[simp] theorem State.setDraws_getKey (n : Nat) (z : Nibble) : (s.setDraws n).getKey z = s.getKey z := rfl
@[simp] theorem State.setDraws_stackSlot (n : Nat) (j : Nat) : (s.setDraws n).stackSlot j = s.stackSlot j := rfl

/-! ## Registers and keys after a write -/

/-- A register read after a register write. -/
theorem State.getV_setV (x z : Nibble) (b : Byte) : (s.setV x b).getV z = if x = z then b else s.getV z := by
  simp only [State.getV, State.setV, Vector.getElem_set, BitVec.toNat_inj]

@[simp] theorem State.getV_setV_same (x : Nibble) (b : Byte) : (s.setV x b).getV x = b := by
  simp [State.getV_setV]

theorem State.getV_setV_other {x z : Nibble} (b : Byte) (h : x ≠ z) : (s.setV x b).getV z = s.getV z := by
  simp [State.getV_setV, h]

/-- A key read after a key write. -/
theorem State.getKey_setKey (k z : Nibble) (d : Bool) : (s.setKey k d).getKey z = if k = z then d else s.getKey z := by
  simp only [State.getKey, State.setKey, Vector.getElem_set, BitVec.toNat_inj]

/-- Two states with the same registers read the same, and conversely. -/
theorem State.regs_ext {s t : State} (h : ∀ z : Nibble, t.getV z = s.getV z) : t.v = s.v := by
  refine Vector.ext fun k hk => ?_
  have := h (BitVec.ofNat 4 k)
  simpa only [State.getV, BitVec.toNat_ofNat, Nat.reducePow, Nat.mod_eq_of_lt hk] using this

end Sys2Proof.Machine
end

