-- ==== Sys2Proof/Laws/Ops.lean ====
section
/-! SUPPORT. One lemma per shared operation that says everything it can do: checks and accesses, taking a fault, the
stack, the skips, the block transfers, and the wrapper of the step around exec. The provers cite these instead of
unfolding the operations. -/

namespace Sys2Proof.Machine

/-! ## Checks and accesses -/

/-- The range check answers when every byte lies in memory and otherwise raises with the lowest address outside. -/
theorem rangeCheck_cases (base len : Nat) :
    ((len = 0 ∨ base + len ≤ 4096) ∧ rangeCheck base len = .ok ())
      ∨ ((len ≠ 0 ∧ 4096 < base + len) ∧ rangeCheck base len = .raised .memRange (.address (max base 4096))) := by
  unfold rangeCheck
  by_cases h : len = 0 ∨ base + len ≤ Config.memSize
  · exact .inl ⟨h, if_pos h⟩
  · refine .inr ⟨?_, if_neg h⟩
    simp only [Config.memSize] at h
    omega

theorem rangeCheck_ok {base len : Nat} (h : len = 0 ∨ base + len ≤ 4096) : rangeCheck base len = .ok () := if_pos h

theorem rangeCheck_raised {base len : Nat} (h0 : len ≠ 0) (h : 4096 < base + len) :
    rangeCheck base len = .raised .memRange (.address (max base 4096)) :=
  if_neg (by simp only [Config.memSize]; omega)

theorem readRange_ok (m : Memory) {base len : Nat} (h : len = 0 ∨ base + len ≤ 4096) :
    readRange m base len = .ok (Memory.readBytes m base len) := by
  rw [readRange, rangeCheck_ok h]; rfl

theorem readRange_raised (m : Memory) {base len : Nat} (h0 : len ≠ 0) (h : 4096 < base + len) :
    readRange m base len = .raised .memRange (.address (max base 4096)) := by
  rw [readRange, rangeCheck_raised h0 h]; rfl

theorem writeRange_ok (m : Memory) {base : Nat} {bytes : List Byte} (h : bytes.length = 0 ∨ base + bytes.length ≤ 4096) :
    writeRange m base bytes = .ok (Memory.writeBytes m base bytes) := by
  rw [writeRange, rangeCheck_ok h]; rfl

theorem writeRange_raised (m : Memory) {base : Nat} {bytes : List Byte} (h0 : bytes.length ≠ 0)
    (h : 4096 < base + bytes.length) :
    writeRange m base bytes = .raised .memRange (.address (max base 4096)) := by
  rw [writeRange, rangeCheck_raised h0 h]; rfl

/-- A checked write that answers keeps the canonical form. -/
theorem writeRange_wf {m m' : Memory} {base : Nat} {bytes : List Byte} (hm : Memory.wf m = true)
    (h : writeRange m base bytes = .ok m') : Memory.wf m' = true := by
  rcases rangeCheck_cases base bytes.length with ⟨hr, hc⟩ | ⟨-, hc⟩
  · rw [writeRange, hc] at h
    cases h
    exact Memory.wf_writeBytes bytes hm (by simpa [List.length_eq_zero_iff] using hr)
  · rw [writeRange, hc] at h
    cases h

/-- A key index answers a code up to 15 and otherwise raises KEY_RANGE with the value. -/
theorem keyIndex_cases (b : Byte) :
    (b.toNat ≤ 15 ∧ keyIndex b = .ok (b.setWidth 4)) ∨ (15 < b.toNat ∧ keyIndex b = .raised .keyRange (.key b)) := by
  unfold keyIndex
  split
  · exact .inr ⟨‹_›, rfl⟩
  · exact .inl ⟨by omega, rfl⟩

/-! ## An instruction with one check -/

/-- Everything `attempt` can do: the effect, the fault with PC and word, or no transition. -/
theorem attempt_cases {α : Type} (s : State) (w : Word) (a : Access α) (effect : α → State) :
    (∃ v, a = .ok v ∧ attempt s w a effect = .next (effect v))
      ∨ (∃ kind info, a = .raised kind info
          ∧ attempt s w a effect = .next (raise s kind (some s.pc) (some w) info))
      ∨ (∃ r, a = .refused r ∧ attempt s w a effect = .refused r) := by
  cases a with
  | ok v => exact .inl ⟨v, rfl, rfl⟩
  | raised kind info => exact .inr (.inl ⟨kind, info, rfl, rfl⟩)
  | refused r => exact .inr (.inr ⟨r, rfl, rfl⟩)

@[simp] theorem attempt_ok {α : Type} (s : State) (w : Word) (v : α) (effect : α → State) :
    attempt s w (.ok v) effect = .next (effect v) := rfl

@[simp] theorem attempt_raised {α : Type} (s : State) (w : Word) (kind : Fault) (info : FaultInfo) (effect : α → State) :
    attempt s w (.raised kind info) effect = .next (raise s kind (some s.pc) (some w) info) := rfl

@[simp] theorem attempt_refused {α : Type} (s : State) (w : Word) (r : Refusal) (effect : α → State) :
    attempt s w (.refused r) effect = .refused r := rfl

/-- Raising changes nothing but the record. -/
theorem raise_frame (s : State) (kind : Fault) (pc word : Option Word) (info : FaultInfo) :
    { raise s kind pc word info with fault := s.fault } = s := rfl

@[simp] theorem raise_fault (s : State) (kind : Fault) (pc word : Option Word) (info : FaultInfo) :
    (raise s kind pc word info).fault = some ⟨kind, pc, word, info⟩ := rfl

/-! ## Stack -/

/-- Push with room: SP one more, the slot written. -/
theorem push_ok {s : State} (v : Word) (h : s.sp.toNat < 16) :
    push s v = .ok (s.setStack (s.sp + 1#8) (s.stack.setIfInBounds s.sp.toNat v)) := by
  unfold push
  rw [if_neg (by simp only [Config.stackDepth]; omega), if_neg (by simp only [Config.stackDepth]; omega)]

/-- Everything Push can do (R27). -/
theorem push_cases (s : State) (v : Word) :
    (s.sp.toNat < 16 ∧ push s v = .ok (s.setStack (s.sp + 1#8) (s.stack.setIfInBounds s.sp.toNat v)))
      ∨ (s.sp.toNat = 16 ∧ push s v = .raised .stackOverflow .nothing)
      ∨ (16 < s.sp.toNat ∧ push s v = .refused .stackPointerOutOfRange) := by
  rcases Nat.lt_trichotomy s.sp.toNat 16 with h | h | h
  · exact .inl ⟨h, push_ok v h⟩
  · exact .inr (.inl ⟨h, if_pos h⟩)
  · refine .inr (.inr ⟨h, ?_⟩)
    unfold push
    rw [if_neg (by simp only [Config.stackDepth]; omega), if_pos h]

/-- Everything Pop can do (R28). -/
theorem pop_cases (s : State) :
    (s.sp.toNat = 0 ∧ pop s = .raised .stackUnderflow .nothing)
      ∨ ((1 ≤ s.sp.toNat ∧ s.sp.toNat ≤ 16)
          ∧ pop s = .ok (s.stackSlot s.sp.toNat, s.setStack (s.sp - 1#8) s.stack))
      ∨ (16 < s.sp.toNat ∧ pop s = .refused .stackPointerOutOfRange) := by
  by_cases h0 : s.sp.toNat = 0
  · exact .inl ⟨h0, if_pos h0⟩
  · by_cases h : 16 < s.sp.toNat
    · refine .inr (.inr ⟨h, ?_⟩)
      unfold pop
      rw [if_neg h0, if_pos h]
    · refine .inr (.inl ⟨by omega, ?_⟩)
      unfold pop
      rw [if_neg h0, if_neg h]

/-- A stack slot in range after Push: the value in the new top, every other slot as before. -/
theorem stackSlot_push {s : State} (v : Word) {j : Nat} (h : s.sp.toNat < 16) (hj : 1 ≤ j ∧ j ≤ 16) :
    (s.setStack (s.sp + 1#8) (s.stack.setIfInBounds s.sp.toNat v)).stackSlot j
      = if j = s.sp.toNat + 1 then v else s.stackSlot j := by
  have e : (s.sp.toNat = j - 1) ↔ (j = s.sp.toNat + 1) := by omega
  by_cases he : j = s.sp.toNat + 1
  · simp [State.stackSlot, he, h]
  · simp [State.stackSlot, he, e]

/-! ## Skips -/

/-- A conditional skip changes nothing but PC. -/
theorem skipIf_eq (c : Bool) (s : State) : skipIf c s = s.setPc (if c then s.pc + 2#16 else s.pc) := by
  cases c <;> rfl

/-! ## Two writes of the flag instructions -/

/-- The registers after a flag and then a result: the result in x, the flag in VF unless x is VF, the rest as before. -/
theorem flagThenResult_getV (s : State) (x z : Nibble) (flag : Byte) (result : State → Byte) :
    (flagThenResult s x flag result).getV z
      = if x = z then result (s.setV vf flag) else if vf = z then flag else s.getV z := by
  simp only [flagThenResult, State.getV_setV]

/-- A flag and then a result change nothing but registers. -/
theorem flagThenResult_frame (s : State) (x : Nibble) (flag : Byte) (result : State → Byte) :
    { flagThenResult s x flag result with v := s.v } = s := rfl

/-! ## Block transfers -/

theorem firstRegs_length (s : State) (x : Nibble) : (firstRegs s x).length = x.toNat + 1 := by
  have := x.isLt
  simp only [firstRegs, List.length_take, Vector.length_toList]
  omega

/-- Byte k of the register block is V[k]. -/
theorem firstRegs_getD (s : State) (x z : Nibble) (h : z.toNat ≤ x.toNat) :
    (firstRegs s x).getD z.toNat 0#8 = s.getV z := by
  have hz := z.isLt
  have hl : z.toNat < (firstRegs s x).length := by rw [firstRegs_length]; omega
  rw [List.getD_eq_getElem _ _ hl]
  simp only [firstRegs, State.getV, List.getElem_take, Vector.getElem_toList]

/-- A register after the block load: the byte at its place in the run from j, or as before. -/
theorem loadRegs_getElem (bs : List Byte) (v : Vector Byte 16) (j k : Nat) (hk : k < 16) :
    (loadRegs v j bs)[k] = if j ≤ k ∧ k < j + bs.length then bs.getD (k - j) 0#8 else v[k] := by
  induction bs generalizing v j with
  | nil => simp [loadRegs]
  | cons b bs ih =>
    rw [loadRegs, ih]
    simp only [List.length_cons]
    by_cases h : j = k
    · subst h
      simp
    · rw [Vector.getElem_setIfInBounds_ne hk h]
      by_cases h1 : j + 1 ≤ k ∧ k < j + 1 + bs.length
      · have e : k - j = (k - (j + 1)) + 1 := by omega
        rw [if_pos h1, if_pos (by omega), e, List.getD_cons_succ]
      · rw [if_neg h1, if_neg (by omega)]

theorem decimalDigits_length (b : Byte) : (decimalDigits b).length = 3 := rfl

/-! ## The step around exec -/

/-- The fetch answers the word at PC while two bytes lie there, and otherwise raises MEM_RANGE. -/
theorem fetch_cases (s : State) :
    (s.pc.toNat + 2 ≤ 4096 ∧ fetch s = .ok (readWord s.mem s.pc.toNat))
      ∨ (4096 < s.pc.toNat + 2 ∧ fetch s = .raised .memRange (.address (max s.pc.toNat 4096))) := by
  rcases rangeCheck_cases s.pc.toNat 2 with ⟨h, hc⟩ | ⟨h, hc⟩
  · exact .inl ⟨by omega, by rw [fetch, hc]; rfl⟩
  · exact .inr ⟨h.2, by rw [fetch, hc]; rfl⟩

/-- What settling an outcome can give a next state from: an instruction that raised nothing, or one that raised and is
undone but for the record. -/
theorem settle_next {s t : State} {o : Host.Outcome State Fault Refusal} (h : settle s o = .next t) :
    (o = .next t ∧ t.fault = none)
      ∨ ∃ u r, o = .next u ∧ u.fault = some r ∧ t = s.setFault (some { r with pc := some s.pc }) := by
  cases o with
  | next u =>
    unfold settle at h
    cases hu : u.fault with
    | none => simp only [hu] at h; cases h; exact .inl ⟨rfl, hu⟩
    | some r => simp only [hu] at h; cases h; exact .inr ⟨u, r, rfl, hu, rfl⟩
  | fault r => cases h
  | refused r => cases h

/-- Everything a step can answer a next state from (R86): it was enabled, and either the fetch raised, or the decoded
instruction ran and was settled. -/
theorem step_next {s t : State} (h : step s = .next t) :
    s.enabled ∧
      ((4096 < s.pc.toNat + 2
          ∧ t = raise s .memRange (some s.pc) none (.address (max s.pc.toNat 4096)))
        ∨ (s.pc.toNat + 2 ≤ 4096
          ∧ settle s (exec (decode (readWord s.mem s.pc.toNat)) (advance s)) = .next t)) := by
  unfold step stepWith at h
  cases hf : s.fault with
  | some r => simp [hf] at h
  | none =>
    cases hw : s.wait with
    | some x => simp [hf, hw] at h
    | none =>
      refine ⟨⟨hf, hw⟩, ?_⟩
      simp only [hf, hw, fetchAndRun] at h
      rcases fetch_cases s with ⟨hp, hc⟩ | ⟨hp, hc⟩
      · rw [hc] at h; exact .inr ⟨hp, h⟩
      · rw [hc] at h; exact .inl ⟨hp, by cases h; rfl⟩

/-- An `execute` that answers a next state was enabled and is exec of the decoded word (R87). -/
theorem execute_next {w : Word} {s t : State} (h : execute w s = .next t) :
    s.enabled ∧ exec (decode w) s = .next t := by
  unfold execute executeWith at h
  cases hf : s.fault with
  | some r => simp [hf] at h
  | none =>
    cases hw : s.wait with
    | some x => simp [hf, hw] at h
    | none => exact ⟨⟨hf, hw⟩, by simpa only [hf, hw] using h⟩

/-! ## Ports -/

/-- A key code below 16 takes its effect, any other is refused (R234). -/
theorem withKeyCode_cases (k : Nat) (effect : Nibble → State) :
    (k < 16 ∧ withKeyCode k effect = .next (effect (BitVec.ofNat 4 k), .nothing))
      ∨ (16 ≤ k ∧ withKeyCode k effect = .refused .keyCodeOutOfRange) := by
  unfold withKeyCode
  by_cases h : k < 16
  · exact .inl ⟨h, if_pos h⟩
  · exact .inr ⟨by omega, if_neg h⟩

/-- What `load` can do to the memory: nothing, or the program's bytes from LOAD_OFFSET, when they fit (R68). -/
theorem loadProgram_cases (bytes : List Byte) (s : State) :
    (loadProgram bytes s).1 = s
      ∨ (0x200 + bytes.length ≤ 4096
          ∧ loadProgram bytes s = (s.setMem (Memory.writeBytes s.mem 0x200 bytes), .loaded)) := by
  unfold loadProgram
  split
  · exact .inl rfl
  · split
    · exact .inl rfl
    · rename_i h
      exact .inr ⟨by simp only [Config.memSize, Config.loadOffset] at h; omega, rfl⟩

end Sys2Proof.Machine
end

