-- ==== Sys2Proof/Laws/PerInstr.lean ====
section
/-! SUPPORT. The per-instruction family RowWord: the encoding of a well-formed instruction matches its own row of
spec/opcode_table.json, word & mask = match (spec/30_encoding.md section 3). One lemma per constructor. -/

namespace Sys2Proof.Laws.RowWord

/-- The instruction's word matches its opcode-table row. -/
def Statement (i : Instr) : Prop := i.wf = true → encode i &&& i.rowMask = i.rowMatch

/-- A nibble under the mask F. -/
theorem nibble_and_F (a : Nibble) : a &&& 0xF#4 = a := BitVec.and_allOnes

/-- A byte under the mask FF. -/
theorem byte_and_FF (a : Byte) : a &&& 0xFF#8 = a := BitVec.and_allOnes

/-- A word of format N under the mask of its family. -/
theorem wordN_family (op : Nibble) (nnn : Addr) : wordN op nnn &&& 0xF000#16 = op ++ 0x000#12 := by
  have h : (op ++ nnn) &&& (0xF#4 ++ 0x000#12) = op ++ 0x000#12 := by
    simp only [BitVec.and_append, nibble_and_F, BitVec.and_zero]
  exact h

/-- A word of format XKK under the mask of its family. -/
theorem wordXKK_family (op x : Nibble) (kk : Byte) : wordXKK op x kk &&& 0xF000#16 = op ++ 0x0#4 ++ 0x00#8 := by
  have h : (op ++ x ++ kk) &&& (0xF#4 ++ 0x0#4 ++ 0x00#8) = op ++ 0x0#4 ++ 0x00#8 := by
    simp only [BitVec.and_append, nibble_and_F, BitVec.and_zero]
  exact h

/-- A word of format XKK under the mask of its family and low byte. -/
theorem wordXKK_subcode (op x : Nibble) (kk : Byte) : wordXKK op x kk &&& 0xF0FF#16 = op ++ 0x0#4 ++ kk := by
  have h : (op ++ x ++ kk) &&& (0xF#4 ++ 0x0#4 ++ 0xFF#8) = op ++ 0x0#4 ++ kk := by
    simp only [BitVec.and_append, nibble_and_F, byte_and_FF, BitVec.and_zero]
  exact h

/-- A word of format XYN under the mask of its family. -/
theorem wordXYN_family (op x y n : Nibble) : wordXYN op x y n &&& 0xF000#16 = op ++ 0x0#4 ++ 0x0#4 ++ 0x0#4 := by
  have h : (op ++ x ++ y ++ n) &&& (0xF#4 ++ 0x0#4 ++ 0x0#4 ++ 0x0#4) = op ++ 0x0#4 ++ 0x0#4 ++ 0x0#4 := by
    simp only [BitVec.and_append, nibble_and_F, BitVec.and_zero]
  exact h

/-- A word of format XYN under the mask of its family and low nibble. -/
theorem wordXYN_subcode (op x y n : Nibble) : wordXYN op x y n &&& 0xF00F#16 = op ++ 0x0#4 ++ 0x0#4 ++ n := by
  have h : (op ++ x ++ y ++ n) &&& (0xF#4 ++ 0x0#4 ++ 0x0#4 ++ 0xF#4) = op ++ 0x0#4 ++ 0x0#4 ++ n := by
    simp only [BitVec.and_append, nibble_and_F, BitVec.and_zero]
  exact h

theorem cls : Statement .cls := fun _ => rfl
theorem ret : Statement .ret := fun _ => rfl
theorem sys (nnn : Addr) : Statement (.sys nnn) := fun _ => wordN_family 0x0 nnn
theorem jp (nnn : Addr) : Statement (.jp nnn) := fun _ => wordN_family 0x1 nnn
theorem call (nnn : Addr) : Statement (.call nnn) := fun _ => wordN_family 0x2 nnn
theorem seVxKk (x : Nibble) (kk : Byte) : Statement (.seVxKk x kk) := fun _ => wordXKK_family 0x3 x kk
theorem sneVxKk (x : Nibble) (kk : Byte) : Statement (.sneVxKk x kk) := fun _ => wordXKK_family 0x4 x kk
theorem seVxVy (x y n : Nibble) : Statement (.seVxVy x y n) := fun _ => wordXYN_family 0x5 x y n
theorem ldVxKk (x : Nibble) (kk : Byte) : Statement (.ldVxKk x kk) := fun _ => wordXKK_family 0x6 x kk
theorem addVxKk (x : Nibble) (kk : Byte) : Statement (.addVxKk x kk) := fun _ => wordXKK_family 0x7 x kk
theorem ldVxVy (x y : Nibble) : Statement (.ldVxVy x y) := fun _ => wordXYN_subcode 0x8 x y 0x0
theorem orVxVy (x y : Nibble) : Statement (.orVxVy x y) := fun _ => wordXYN_subcode 0x8 x y 0x1
theorem andVxVy (x y : Nibble) : Statement (.andVxVy x y) := fun _ => wordXYN_subcode 0x8 x y 0x2
theorem xorVxVy (x y : Nibble) : Statement (.xorVxVy x y) := fun _ => wordXYN_subcode 0x8 x y 0x3
theorem addVxVy (x y : Nibble) : Statement (.addVxVy x y) := fun _ => wordXYN_subcode 0x8 x y 0x4
theorem subVxVy (x y : Nibble) : Statement (.subVxVy x y) := fun _ => wordXYN_subcode 0x8 x y 0x5
theorem shrVx (x y : Nibble) : Statement (.shrVx x y) := fun _ => wordXYN_subcode 0x8 x y 0x6
theorem subnVxVy (x y : Nibble) : Statement (.subnVxVy x y) := fun _ => wordXYN_subcode 0x8 x y 0x7
theorem shlVx (x y : Nibble) : Statement (.shlVx x y) := fun _ => wordXYN_subcode 0x8 x y 0xE
theorem sneVxVy (x y n : Nibble) : Statement (.sneVxVy x y n) := fun _ => wordXYN_family 0x9 x y n
theorem ldINnn (nnn : Addr) : Statement (.ldINnn nnn) := fun _ => wordN_family 0xA nnn
theorem jpV0Nnn (nnn : Addr) : Statement (.jpV0Nnn nnn) := fun _ => wordN_family 0xB nnn
theorem rndVxKk (x : Nibble) (kk : Byte) : Statement (.rndVxKk x kk) := fun _ => wordXKK_family 0xC x kk
theorem drwVxVyN (x y n : Nibble) : Statement (.drwVxVyN x y n) := fun _ => wordXYN_family 0xD x y n
theorem skpVx (x : Nibble) : Statement (.skpVx x) := fun _ => wordXKK_subcode 0xE x 0x9E
theorem sknpVx (x : Nibble) : Statement (.sknpVx x) := fun _ => wordXKK_subcode 0xE x 0xA1
theorem ldVxDt (x : Nibble) : Statement (.ldVxDt x) := fun _ => wordXKK_subcode 0xF x 0x07
theorem ldVxK (x : Nibble) : Statement (.ldVxK x) := fun _ => wordXKK_subcode 0xF x 0x0A
theorem ldDtVx (x : Nibble) : Statement (.ldDtVx x) := fun _ => wordXKK_subcode 0xF x 0x15
theorem ldStVx (x : Nibble) : Statement (.ldStVx x) := fun _ => wordXKK_subcode 0xF x 0x18
theorem addIVx (x : Nibble) : Statement (.addIVx x) := fun _ => wordXKK_subcode 0xF x 0x1E
theorem ldFVx (x : Nibble) : Statement (.ldFVx x) := fun _ => wordXKK_subcode 0xF x 0x29
theorem ldBVx (x : Nibble) : Statement (.ldBVx x) := fun _ => wordXKK_subcode 0xF x 0x33
theorem ldMemVx (x : Nibble) : Statement (.ldMemVx x) := fun _ => wordXKK_subcode 0xF x 0x55
theorem ldVxMem (x : Nibble) : Statement (.ldVxMem x) := fun _ => wordXKK_subcode 0xF x 0x65
theorem nop (w : Word) : Statement (.nop w) := fun _ => by simp [encode, Instr.rowMask, Instr.rowMatch]

end Sys2Proof.Laws.RowWord
end

