-- ==== Sys2Proof/Laws/Ports.lean ====
section
/-! SUPPORT. Runs of host operations: their first operation, their parts, and the one induction over them. -/

namespace Sys2Proof.Machine

@[simp] theorem performAll_nil (s : State) : performAll [] s = .next (s, []) := rfl

/-- A run that gets through performs its first operation and then the rest from there. -/
theorem performAll_cons_next {op : HostOp} {ops : List HostOp} {s u : State} {bs : List Answer} :
    performAll (op :: ops) s = .next (u, bs) ↔
      ∃ t a as, perform op s = .next (t, a) ∧ performAll ops t = .next (u, as) ∧ bs = a :: as := by
  simp only [performAll]
  constructor
  · intro h
    split at h
    · rename_i p hp
      split at h
      · rename_i q hq
        cases h
        exact ⟨p.1, p.2, q.2, hp, hq, rfl⟩
      · cases h
      · cases h
    · cases h
    · cases h
  · rintro ⟨t, a, as, h, h', rfl⟩
    simp only [h, h']

/-- Two runs, one after the other, are one run. -/
theorem performAll_append {ops ops' : List HostOp} {s t u : State} {as bs : List Answer}
    (h : performAll ops s = .next (t, as)) (h' : performAll ops' t = .next (u, bs)) :
    performAll (ops ++ ops') s = .next (u, as ++ bs) := by
  induction ops generalizing s as with
  | nil => cases h; exact h'
  | cons op ops ih =>
    obtain ⟨v, a, cs, hp, hr, rfl⟩ := performAll_cons_next.1 h
    exact performAll_cons_next.2 ⟨v, a, cs ++ bs, hp, ih hr, rfl⟩

theorem reaches_refl (s : State) : s.reaches s := ⟨[], [], rfl⟩

theorem reaches_trans {s t u : State} (h : s.reaches t) (h' : t.reaches u) : s.reaches u := by
  obtain ⟨_, _, h⟩ := h
  obtain ⟨_, _, h'⟩ := h'
  exact ⟨_, _, performAll_append h h'⟩

/-- The induction over runs: what every operation keeps, every run keeps. -/
theorem reaches_keeps {P : State → Prop} (keeps : ∀ op s t a, P s → perform op s = .next (t, a) → P t)
    {s t : State} (hs : P s) (h : s.reaches t) : P t := by
  obtain ⟨ops, as, h⟩ := h
  induction ops generalizing s as with
  | nil => cases h; exact hs
  | cons op ops ih =>
    obtain ⟨v, a, cs, hp, hr, rfl⟩ := performAll_cons_next.1 h
    exact ih (keeps _ _ _ _ hs hp) cs hr

/-- The code tells a fault's kind (R221). -/
theorem code_injective {f g : Fault} (h : f.code = g.code) : f = g := by
  cases f <;> cases g <;> first | rfl | exact absurd h (by decide)

end Sys2Proof.Machine
end

