-- ==== Sys2Proof/Tests/Slice0.lean ====
section
/-! SUPPORT. Tests: expected results are those of spec/30_encoding.md section 3 (words) and spec/95_test_vectors.md (the
vector's number stands at each test). Witnesses: for each obligation with hypotheses, concrete data that meet them, at the
ends of their ranges. -/

namespace Sys2Proof.Tests

open Sys2Proof Sys2Proof.Machine

/-! ## Helpers -/

/-- The state of a next outcome. -/
def next? (o : Host.Outcome State Fault Refusal) : Option State :=
  match o with
  | .next t => some t
  | .fault _ => none
  | .refused _ => none

/-- The state of a host operation's next outcome. -/
def after? (o : Host.Outcome (State × Answer) Fault Refusal) : Option State :=
  match o with
  | .next p => some p.1
  | .fault _ => none
  | .refused _ => none

/-- One step from s with the word w at PC. -/
def run (w : Nat) (s : State) : Option State := next? (step (s.withFetchWord 16 w))

/-- The start state of 95_test_vectors.md with V1 and V2. -/
def withV12 (a b : Byte) : State := (State.reset.setV 1 a).setV 2 b

/-- The fault record after one step. -/
def faultOf (o : Option State) : Option (Option FaultRecord) := o.map State.fault

/-- A state that has faulted (T25). -/
def faulted : State :=
  { State.reset with fault := some ⟨.stackUnderflow, some 0x200#16, some 0x00EE#16, .nothing⟩, dt := 3#8 }

/-- A state in the key wait of T116. -/
def waitingState : State := { State.reset with wait := some 3#4, pc := 0x202#16, dt := 5#8 }

/-- The start state with the stack pointer at n. -/
def withSp (n : Byte) : State := { State.reset with sp := n }

/-- The start state with I. -/
def withI (a : Word) : State := State.reset.setI a

/-! ## Well-formedness: each check refuses an ill-formed term -/

theorem test_wf_sys_is_not_cls : (Instr.sys 0x0E0#12).wf = false := by decide
theorem test_wf_sys_is_not_ret : (Instr.sys 0x0EE#12).wf = false := by decide
theorem test_wf_nop_word_with_a_row : (Instr.nop 0x6000#16).wf = false ∧ (Instr.nop 0x8007#16).wf = false
    ∧ (Instr.nop 0xE19E#16).wf = false ∧ (Instr.nop 0xF365#16).wf = false ∧ (Instr.nop 0x0000#16).wf = false := by decide
theorem test_wf_accepts : (Instr.sys 0x0E1#12).wf = true ∧ (Instr.nop 0x800F#16).wf = true
    ∧ (Instr.nop 0xE000#16).wf = true ∧ (Instr.nop 0xF0FF#16).wf = true := by decide

/-! ## Decoding: a word of every row, from the opcode map -/

theorem test_decode_families_0_to_3 : decode 0x00E0#16 = .cls ∧ decode 0x00EE#16 = .ret ∧ decode 0x0FFF#16 = .sys 0xFFF#12
    ∧ decode 0x1345#16 = .jp 0x345#12 ∧ decode 0x2210#16 = .call 0x210#12 ∧ decode 0x3342#16 = .seVxKk 3 0x42 := by decide
theorem test_decode_families_4_to_7 : decode 0x4342#16 = .sneVxKk 3 0x42 ∧ decode 0x5127#16 = .seVxVy 1 2 7
    ∧ decode 0x6AFF#16 = .ldVxKk 0xA 0xFF ∧ decode 0x7102#16 = .addVxKk 1 2 := by decide
theorem test_decode_family_8 : decode 0x8120#16 = .ldVxVy 1 2 ∧ decode 0x8121#16 = .orVxVy 1 2
    ∧ decode 0x8122#16 = .andVxVy 1 2 ∧ decode 0x8123#16 = .xorVxVy 1 2 ∧ decode 0x8F14#16 = .addVxVy 0xF 1
    ∧ decode 0x81F5#16 = .subVxVy 1 0xF ∧ decode 0x8F06#16 = .shrVx 0xF 0 ∧ decode 0x8F27#16 = .subnVxVy 0xF 2
    ∧ decode 0x812E#16 = .shlVx 1 2 := by decide
theorem test_decode_families_9_to_D : decode 0x912F#16 = .sneVxVy 1 2 0xF ∧ decode 0xA123#16 = .ldINnn 0x123#12
    ∧ decode 0xBFFF#16 = .jpV0Nnn 0xFFF#12 ∧ decode 0xC10F#16 = .rndVxKk 1 0x0F
    ∧ decode 0xDAB5#16 = .drwVxVyN 0xA 0xB 5 := by decide
theorem test_decode_family_E : decode 0xE19E#16 = .skpVx 1 ∧ decode 0xE1A1#16 = .sknpVx 1 ∧ decode 0xE09F#16 = .nop 0xE09F#16 := by
  decide
theorem test_decode_family_F : decode 0xF307#16 = .ldVxDt 3 ∧ decode 0xF50A#16 = .ldVxK 5 ∧ decode 0xF315#16 = .ldDtVx 3
    ∧ decode 0xF218#16 = .ldStVx 2 ∧ decode 0xF51E#16 = .addIVx 5 ∧ decode 0xFC29#16 = .ldFVx 0xC
    ∧ decode 0xF033#16 = .ldBVx 0 ∧ decode 0xF155#16 = .ldMemVx 1 ∧ decode 0xF265#16 = .ldVxMem 2
    ∧ decode 0xF01F#16 = .nop 0xF01F#16 := by decide
theorem test_decode_bytes_are_big_endian : decodeBytes [0x61, 0x23, 0x99] = .ok (.ldVxKk 1 0x23, [0x99]) := by decide
theorem test_decode_one_byte_is_too_few : decodeBytes [0x61] = .error .tooFewBytes := by decide
theorem test_decodeTableWord : decodeTableWord 16 0x2210 = some (.call 0x210#12) ∧ decodeTableWord 16 0xF265 = some (.ldVxMem 2)
    ∧ decodeTableWord 16 0 = some (.sys 0) := by decide
theorem test_assembly_text : assemblyText (.drwVxVyN 0xA 0xB 5) = some "DRW VA, VB, 0x5" := by decide
theorem test_canonical_word : encode (Instr.canonical (.shrVx 1 2)) = 0x8106#16 := by decide

/-! ## Control flow -/

/-- T3. -/
theorem test_sys_noop : (run 0x00E1 State.reset).map (fun t => (t.pc, t.sp, t.i, t.draws)) = some (0x202#16, 0#8, 0#16, 0) := by
  decide
/-- T8. -/
theorem test_nop_does_not_skip : (run 0xE09F (State.reset.setKey 0 true)).map State.pc = some 0x202#16 := by decide
/-- T24. -/
theorem test_ret : (run 0x00EE { State.reset with sp := 1, stack := State.reset.stack.set 0 0x20A#16 }).map
    (fun t => (t.pc, t.sp, t.stackSlot 1)) = some (0x20A#16, 0#8, 0x20A#16) := by decide
/-- T25. -/
theorem test_ret_empty : (run 0x00EE State.reset).map (fun t => (t.pc, t.sp, t.fault))
    = some (0x200#16, 0#8, some ⟨.stackUnderflow, some 0x200#16, some 0x00EE#16, .nothing⟩) := by decide
/-- T22. -/
theorem test_jp_last_address : (run 0x1FFF State.reset).map State.pc = some 0xFFF#16 := by decide
/-- T26. -/
theorem test_call_sixteenth : (run 0x2300 (withSp 15)).map (fun t => (t.pc, t.sp, t.stackSlot 16))
    = some (0x300#16, 16#8, 0x202#16) := by decide
/-- T27. -/
theorem test_call_full : (run 0x2300 (withSp 16)).map (fun t => (t.pc, t.sp, t.fault))
    = some (0x200#16, 16#8, some ⟨.stackOverflow, some 0x200#16, some 0x2300#16, .nothing⟩) := by decide
/-- T32. -/
theorem test_se_vf : (run 0x3F01 (State.reset.setV 0xF 1)).map State.pc = some 0x204#16 := by decide
/-- T43. -/
theorem test_se_at_top : (run 0x3000 { State.reset with pc := 0xFFC#16 }).map (fun t => (t.pc, t.fault))
    = some (0x1000#16, none) := by decide
/-- T30, T31. -/
theorem test_sne : (run 0x4342 (State.reset.setV 3 0x41)).map State.pc = some 0x204#16
    ∧ (run 0x4342 (State.reset.setV 3 0x42)).map State.pc = some 0x202#16 := by decide
/-- T34, T35. -/
theorem test_se_registers : (run 0x5120 (withV12 7 8)).map State.pc = some 0x202#16
    ∧ (run 0x5127 (withV12 7 7)).map State.pc = some 0x204#16 := by decide
/-- T38, T39. -/
theorem test_sne_registers : (run 0x9110 State.reset).map State.pc = some 0x202#16
    ∧ (run 0x912F (withV12 1 2)).map State.pc = some 0x204#16 := by decide
/-- T41, T42. -/
theorem test_jp_v0 : (run 0xBFFF (State.reset.setV 0 0xFF)).map State.pc = some 0x10FE#16
    ∧ (run 0xB300 (State.reset.setV 5 0x40)).map State.pc = some 0x300#16 := by decide

/-! ## Loads, arithmetic, logic, shifts, random -/

/-- T50. -/
theorem test_ld_kk : (run 0x6AFF State.reset).map (fun t => t.getV 0xA) = some 0xFF#8 := by decide
/-- T52. -/
theorem test_add_kk : (run 0x7102 ((State.reset.setV 1 0xFF).setV 0xF 0x77)).map (fun t => (t.getV 1, t.getV 0xF))
    = some (0x01#8, 0x77#8) := by decide
/-- T54. -/
theorem test_ld_vy : (run 0x8120 (withV12 5 9)).map (fun t => t.getV 1) = some 9#8 := by decide
/-- T55. -/
theorem test_or : (run 0x8121 ((withV12 0xF0 0x0F).setV 0xF 0x33)).map (fun t => (t.getV 1, t.getV 0xF))
    = some (0xFF#8, 0x33#8) := by decide
/-- T56. -/
theorem test_and : (run 0x8122 (withV12 0xF0 0x3C)).map (fun t => t.getV 1) = some 0x30#8 := by decide
/-- T57. -/
theorem test_xor : (run 0x8123 (withV12 0xFF 0x0F)).map (fun t => t.getV 1) = some 0xF0#8 := by decide
/-- T59, T60. -/
theorem test_add : (run 0x8124 (withV12 250 10)).map (fun t => (t.getV 1, t.getV 0xF)) = some (4#8, 1#8)
    ∧ (run 0x8124 (withV12 100 155)).map (fun t => (t.getV 1, t.getV 0xF)) = some (255#8, 0#8) := by decide
/-- T63, T64. -/
theorem test_add_vf : (run 0x8F14 ((State.reset.setV 0xF 0x10).setV 1 0xF5)).map (fun t => t.getV 0xF) = some 0x05#8
    ∧ (run 0x81F4 ((State.reset.setV 0xF 0x20).setV 1 0xF0)).map (fun t => (t.getV 1, t.getV 0xF)) = some (0x10#8, 1#8) := by
  decide
/-- T66, T67. -/
theorem test_sub : (run 0x8125 (withV12 5 10)).map (fun t => (t.getV 1, t.getV 0xF)) = some (0xFB#8, 0#8)
    ∧ (run 0x8125 (withV12 7 7)).map (fun t => (t.getV 1, t.getV 0xF)) = some (0#8, 0#8) := by decide
/-- T68, T69. -/
theorem test_sub_vf : (run 0x8F35 ((State.reset.setV 0xF 5).setV 3 3)).map (fun t => t.getV 0xF) = some 0xFE#8
    ∧ (run 0x81F5 ((State.reset.setV 0xF 3).setV 1 5)).map (fun t => (t.getV 1, t.getV 0xF)) = some (4#8, 1#8) := by decide
/-- T70, T71. -/
theorem test_shr : (run 0x8126 (withV12 0x05 0)).map (fun t => (t.getV 1, t.getV 0xF)) = some (0x02#8, 1#8)
    ∧ (run 0x8126 (withV12 0x80 0xFF)).map (fun t => (t.getV 1, t.getV 0xF)) = some (0x40#8, 0#8) := by decide
/-- T72. -/
theorem test_shr_vf : (run 0x8F06 (State.reset.setV 0xF 0xFF)).map (fun t => t.getV 0xF) = some 0#8 := by decide
/-- T74, T75. -/
theorem test_subn : (run 0x8127 (withV12 10 5)).map (fun t => (t.getV 1, t.getV 0xF)) = some (0xFB#8, 0#8)
    ∧ (run 0x8127 (withV12 9 9)).map (fun t => (t.getV 1, t.getV 0xF)) = some (0#8, 0#8) := by decide
/-- T76, T77. -/
theorem test_subn_vf : (run 0x8F27 ((State.reset.setV 0xF 3).setV 2 5)).map (fun t => t.getV 0xF) = some 4#8
    ∧ (run 0x81F7 ((State.reset.setV 0xF 5).setV 1 3)).map (fun t => (t.getV 1, t.getV 0xF)) = some (0xFE#8, 1#8) := by decide
/-- T78, T79. -/
theorem test_shl : (run 0x812E (withV12 0x81 0)).map (fun t => (t.getV 1, t.getV 0xF)) = some (0x02#8, 0x80#8)
    ∧ (run 0x812E (withV12 0x7F 0)).map (fun t => (t.getV 1, t.getV 0xF)) = some (0xFE#8, 0#8) := by decide
/-- T80. -/
theorem test_shl_vf : (run 0x8FFE (State.reset.setV 0xF 0xFF)).map (fun t => t.getV 0xF) = some 0#8 := by decide
/-- T83: whatever the draw. -/
theorem test_rnd_mask_zero : (next? (exec (.rndVxKk 1 0x00) (State.reset.setV 1 9))).map (fun t => t.getV 1) = some 0#8 := by
  simp [next?, exec, execRndVxKk, State.getV, State.setDraws, State.setV]

/-! ## Display -/

/-- T90. -/
theorem test_cls : (run 0x00E0 (State.reset.setFb (State.reset.fb.setPixel 63 31 true))).map (fun t => t.fb.pixel 63 31)
    = some false := by decide
/-- S3, T91: glyph 0 at (0, 0). -/
theorem test_drw_glyph : (run 0xD015 State.reset).map (fun t => (t.fb.pixel 3 0, t.fb.pixel 4 0, t.fb.pixel 1 1, t.fb.pixel 3 3,
    t.fb.pixel 3 4, t.getV 0xF)) = some (true, false, false, true, true, 0#8) := by decide
/-- T94. -/
theorem test_drw_collision : (run 0xD001 (State.reset.setFb (State.reset.fb.setPixel 2 0 true))).map
    (fun t => (t.fb.pixel 1 0, t.fb.pixel 2 0, t.fb.pixel 3 0, t.getV 0xF)) = some (true, false, true, 1#8) := by decide
/-- T95. -/
theorem test_drw_out_of_range : faultOf (run 0xD003 (withI 0xFFE#16))
    = some (some ⟨.memRange, some 0x200#16, some 0xD003#16, .address 0x1000⟩) := by decide
/-- T93's start by R151: x and y are both V0 = 200, so column 200 mod 64 + 2 and row 200 mod 32 (the vector's own row 0
overlooks the second: log entry 10). -/
theorem test_drw_wraps : (run 0xD001 ((withI 0x05#16).setV 0 200)).map
    (fun t => (t.fb.pixel 10 8, t.fb.pixel 10 0, t.getV 0xF)) = some (true, false, 0#8) := by decide
/-- S4: a sprite over both edges. -/
theorem test_drw_edges : (run 0xD121 (((withI 0xFFF#16).setMem [(0xFFF, 0xFF)]).setV 1 60)).map
    (fun t => (t.fb.pixel 63 0, t.fb.pixel 3 0, t.fb.pixel 4 0, t.fault)) = some (true, true, false, none) := by decide
/-- T99, T100. -/
theorem test_ld_f : (run 0xF129 (State.reset.setV 1 0x10)).map State.i = some 0x050#16
    ∧ (run 0xF129 (State.reset.setV 1 0xFF)).map State.i = some 0x4FB#16 := by decide

/-! ## Keyboard -/

/-- T110, T111. -/
theorem test_skp : (run 0xE19E ((State.reset.setV 1 4).setKey 4 true)).map State.pc = some 0x204#16
    ∧ (run 0xE19E (State.reset.setV 1 4)).map State.pc = some 0x202#16 := by decide
/-- T114. -/
theorem test_skp_out_of_range : faultOf (run 0xE19E (State.reset.setV 1 0x10))
    = some (some ⟨.keyRange, some 0x200#16, some 0xE19E#16, .key 0x10#8⟩) := by decide
/-- T112, T113. -/
theorem test_sknp : (run 0xE1A1 (State.reset.setV 1 4)).map State.pc = some 0x204#16
    ∧ (run 0xE1A1 ((State.reset.setV 1 4).setKey 4 true)).map State.pc = some 0x202#16 := by decide
/-- T115. -/
theorem test_sknp_out_of_range : faultOf (run 0xE1A1 (State.reset.setV 1 0xFF))
    = some (some ⟨.keyRange, some 0x200#16, some 0xE1A1#16, .key 0xFF#8⟩) := by decide
/-- T116, T120: a key already held does not end the wait. -/
theorem test_ld_k : (run 0xF30A (State.reset.setKey 7 true)).map (fun t => (t.wait, t.pc, t.getV 3))
    = some (some 3#4, 0x202#16, 0#8) := by decide
/-- T119, T121. -/
theorem test_key_down_ends_wait : (after? (perform (.keyDown 7) waitingState)).map
    (fun t => (t.getV 3, t.getKey 7, t.wait, t.pc)) = some (7#8, true, none, 0x202#16) := by decide
/-- T117, T118. -/
theorem test_tick_and_key_up_in_wait : (after? (perform .tick waitingState)).map State.dt = some 5#8
    ∧ (after? (perform (.keyUp 2) (waitingState.setKey 2 true))).map (fun t => (t.getKey 2, t.wait))
      = some (false, some 3#4) := by decide

/-! ## Address register, timers, BCD, block transfer -/

/-- T130. -/
theorem test_ld_i : (run 0xA123 State.reset).map State.i = some 0x123#16 := by decide
/-- T131. -/
theorem test_ld_dt_read : (run 0xF307 (State.reset.setDt 0x3C)).map (fun t => t.getV 3) = some 0x3C#8 := by decide
/-- T132. -/
theorem test_ld_dt_write : (run 0xF315 (State.reset.setV 3 7)).map (fun t => (t.dt, t.st)) = some (7#8, 0#8) := by decide
/-- T133. -/
theorem test_ld_st : (run 0xF218 (State.reset.setV 2 0x1E)).map (fun t => (t.st, t.dt, soundLevel t)) = some (0x1E#8, 0#8, true) := by
  decide
/-- T135, T136. -/
theorem test_add_i : (run 0xF11E ((withI 0xFFF#16).setV 1 1)).map (fun t => (t.i, t.fault)) = some (0x1000#16, none)
    ∧ (run 0xF11E ((withI 0xFFFF#16).setV 1 2)).map State.i = some 0x0001#16 := by decide
/-- S8, T140. -/
theorem test_ld_b : (run 0xF033 ((withI 0xFFD#16).setV 0 123)).map (fun t => Memory.readBytes t.mem 0xFFD 3)
    = some [0x01, 0x02, 0x03] := by decide
/-- T141. -/
theorem test_ld_b_out_of_range : (run 0xF033 ((withI 0xFFE#16).setV 0 123)).map (fun t => (t.fault, Memory.read t.mem 0xFFE))
    = some (some ⟨.memRange, some 0x200#16, some 0xF033#16, .address 0x1000⟩, 0x00) := by decide
/-- T142. -/
theorem test_store_block : (run 0xF155 (((withI 0x300#16).setV 0 1).setV 1 2)).map
    (fun t => (Memory.readBytes t.mem 0x300 3, t.i)) = some ([1, 2, 0], 0x300#16) := by decide
/-- T144, T145. -/
theorem test_store_block_out_of_range : faultOf (run 0xFF55 (withI 0xFF1#16))
      = some (some ⟨.memRange, some 0x200#16, some 0xFF55#16, .address 0x1000⟩)
    ∧ faultOf (run 0xF055 (withI 0x1005#16))
      = some (some ⟨.memRange, some 0x200#16, some 0xF055#16, .address 0x1005⟩) := by decide
/-- T148: the font is readable. -/
theorem test_load_block : (run 0xF465 (State.reset.setV 5 9)).map
    (fun t => (t.getV 0, t.getV 1, t.getV 4, t.getV 5)) = some (0xF0#8, 0x90#8, 0xF0#8, 9#8) := by decide
/-- T144's bound, for the load. -/
theorem test_load_block_out_of_range : faultOf (run 0xF165 (withI 0xFFF#16))
    = some (some ⟨.memRange, some 0x200#16, some 0xF165#16, .address 0x1000⟩) := by decide

/-! ## Fetch, host ports -/

/-- T12. -/
theorem test_fetch_out_of_range : faultOf (next? (step { State.reset with pc := 0xFFF#16 }))
    = some (some ⟨.memRange, some 0xFFF#16, none, .address 0x1000⟩) := by decide
/-- T14. -/
theorem test_fetch_above_memory : faultOf (next? (step { State.reset with pc := 0x10FE#16 }))
    = some (some ⟨.memRange, some 0x10FE#16, none, .address 0x10FE⟩) := by decide
/-- T11: an odd PC. -/
theorem test_fetch_odd : (run 0x6205 { State.reset with pc := 0x201#16 }).map (fun t => (t.getV 2, t.pc))
    = some (5#8, 0x203#16) := by decide
/-- T15. -/
theorem test_execute_port : (next? (execute 0x6A07#16 State.reset)).map (fun t => (t.getV 0xA, t.pc)) = some (7#8, 0x200#16) := by
  decide
/-- T160, T161. -/
theorem test_tick : (after? (perform .tick ((State.reset.setDt 2).setSt 1))).map (fun t => (t.dt, t.st, soundLevel t))
      = some (1#8, 0#8, false)
    ∧ (after? (perform .tick State.reset)).map (fun t => (t.dt, t.st)) = some (0#8, 0#8) := by decide
/-- T162, T163. -/
theorem test_faulted_is_frozen : (after? (perform .tick faulted)).map State.dt = some 3#8
    ∧ (after? (perform (.keyDown 1) faulted)).map (fun t => t.getKey 1) = some false := by decide
/-- T164, T170. -/
theorem test_initialize : (after? (perform .initializeCore (faulted.setKeymap [(65, 7)]))).map
    (fun t => (t.fault, t.dt, t.pc, t.keymap)) = some (none, 0#8, 0x200#16, [(65, 7)]) := by decide
/-- T165, T168. -/
theorem test_screen_bounds : faultOf (after? (perform (.isSet 64 0) State.reset))
      = some (some ⟨.screenBounds, none, none, .coordinate 64 0⟩)
    ∧ faultOf (after? (perform (.setOff 63 32) State.reset)) = some (some ⟨.screenBounds, none, none, .coordinate 63 32⟩) := by
  decide
/-- T166. -/
theorem test_set_on : (after? (perform (.setOn 0 31) State.reset)).map (fun t => (t.fb.pixel 0 31, t.getV 0xF))
    = some (true, 0#8) := by decide
/-- T169. -/
theorem test_key_code_16 : perform (.keyDown 16) State.reset = .refused .keyCodeOutOfRange := by rfl
/-- T181: the self-jump at the entry point. -/
theorem test_load_then_step : ((after? (perform (.load [0x12, 0x00]) State.reset)).bind fun t => next? (step t)).map State.pc
    = some 0x200#16 := by decide
/-- A raw key-down of a host key the table does not map is ignored (R233). -/
theorem test_unmapped_raw_key : (rawKeyDown 66 (waitingState.setKeymap [(65, 7)])).wait = some 3#4
    ∧ (rawKeyDown 65 (waitingState.setKeymap [(65, 7)])).wait = none := by decide
/-- T117 then T119 as one run of host operations, and a run that stops at a step in the wait (R242, R174). -/
theorem test_run_of_operations : (match performAll [.tick, .keyDown 7, .timers] waitingState with
      | .next p => some (p.1.getV 3, p.1.wait, p.2)
      | _ => none) = some (7#8, none, [.nothing, .nothing, .timers 5 0])
    ∧ performAll [.tick, .step, .keyDown 7] waitingState = .refused .waitingForKey := by exact ⟨by decide, rfl⟩
/-- The codes of R221's table. -/
theorem test_fault_codes : [Fault.memRange, .stackOverflow, .stackUnderflow, .keyRange, .screenBounds].map Fault.code
    = [1, 2, 3, 4, 5] := by decide
/-- withFetchWord leads the next step of any state to the word. -/
theorem test_withFetchWord : (run 0x6A07 faulted).map (fun t => t.getV 0xA) = some 7#8
    ∧ (run 0x6A07 { waitingState with pc := 0x10FE#16 }).map (fun t => t.getV 0xA) = some 7#8 := by decide

/-! ## Witnesses: the hypotheses of each obligation, met together -/

theorem witness_DecodeOfEncodeIsTheInstruction : (Instr.sys 0xFFF#12).wf = true ∧ (Instr.nop 0xFFFF#16).wf = true
    ∧ (Instr.drwVxVyN 0xF 0xF 0xF).wf = true := by decide
/-- The three clauses of the table: CLS and RET before SYS, and a word only one row takes. -/
theorem witness_DecoderAgreesWithTheOpcodeTable :
    ((Instr.sys 0).wf = true ∧ (Instr.sys 0).rowMask ≠ 0x0000#16 ∧ 0x00E0#16 &&& (Instr.sys 0).rowMask = (Instr.sys 0).rowMatch
      ∧ (Instr.sys 0).rowMask = 0xF000#16)
    ∧ 0x00EE#16 &&& (Instr.sys 0).rowMask = (Instr.sys 0).rowMatch
    ∧ (0x00E1#16 &&& (Instr.sys 0).rowMask = (Instr.sys 0).rowMatch ∧ 0x00E1#16 ≠ 0x00E0#16 ∧ 0x00E1#16 ≠ 0x00EE#16)
    ∧ (Instr.cls.wf = true ∧ 0x00E0#16 &&& Instr.cls.rowMask = Instr.cls.rowMatch ∧ Instr.cls.rowMask ≠ 0xF000#16) := by decide
/-- One word of each part of the no-op space, and a state that fetches it. -/
theorem witness_UnrecognisedWordsAreNoOps :
    (opField 0x00EF#16 = 0x0#4 ∧ 0x00EF#16 ≠ 0x00E0#16 ∧ 0x00EF#16 ≠ 0x00EE#16)
    ∧ (opField 0x800F#16 = 0x8#4 ∧ nField 0x800F#16 ∈ [0x8#4, 0x9#4, 0xA#4, 0xB#4, 0xC#4, 0xD#4, 0xF#4])
    ∧ (opField 0xE09F#16 = 0xE#4 ∧ kkField 0xE09F#16 ∉ [0x9E#8, 0xA1#8])
    ∧ (opField 0xF01F#16 = 0xF#4 ∧ kkField 0xF01F#16 ∉ [0x07#8, 0x0A#8, 0x15#8, 0x18#8, 0x1E#8, 0x29#8, 0x33#8, 0x55#8, 0x65#8])
    ∧ (State.reset.withFetchWord 16 0xF01F).enabled ∧ fetch (State.reset.withFetchWord 16 0xF01F) = .ok 0xF01F#16 := by decide
theorem witness_CallPushesPcAndJumpsOrOverflows : (withSp 15).sp.toNat < 16 ∧ (withSp 16).sp.toNat = 16 := by decide
theorem witness_ReturnPopsPcOrUnderflows : (1 ≤ (withSp 1).sp.toNat ∧ (withSp 1).sp.toNat ≤ 16)
    ∧ (1 ≤ (withSp 16).sp.toNat ∧ (withSp 16).sp.toNat ≤ 16) ∧ (withSp 0).sp.toNat = 0 := by decide
theorem witness_ReturnUndoesCall : ∃ t, (withSp 15).sp.toNat < 16 ∧ exec (.call 0x300#12) (withSp 15) = .next t
    ∧ t.sp = t.sp ∧ t.stack = t.stack := ⟨_, by decide, rfl, rfl, rfl⟩
theorem witness_SkipsComparingRegisters : (0xF#4 : Nibble) = 0xF#4 := rfl
/-- Destinations beside and at VF, for the flag writers of family 8. -/
theorem witness_FlagWriters : (0xE#4 : Nibble) ≠ 0xF#4 ∧ (0x0#4 : Nibble) ≠ 0xE#4 ∧ (0xF#4 : Nibble) = 0xF#4 := by decide
theorem witness_DrawSpriteTogglesWhatItCovers : (List.replicate 15 0xFF#8).length ≤ 15 ∧ ([] : List Byte).length ≤ 15 := by
  decide
theorem witness_DrawingTwiceRestoresTheScreen : (List.replicate 15 0x80#8).length ≤ 15 := by decide
/-- n = 0 with I out of memory, n = 15 up to the last byte, and both clauses on the collision. -/
theorem witness_DrawWritesScreenAndCollision :
    (0#4 = 0#4 ∨ (withI 0xFFFF#16).i.toNat + (0#4).toNat ≤ 4096)
    ∧ (0xF#4 = 0#4 ∨ (withI 0xFF1#16).i.toNat + (0xF#4).toNat ≤ 4096)
    ∧ spriteCovers 0 0 [0x80#8] 0 0 = true ∧ (State.reset.fb.setPixel 0 0 true).pixel 0 0 = true
    ∧ State.reset.fb.pixel 0 0 = false := by decide
theorem witness_KeySkipsOrRaise : ((State.reset.setV 1 15).getV 1).toNat ≤ 15 ∧ 15 < ((State.reset.setV 1 16).getV 1).toNat := by
  decide
theorem witness_KeyWaitEndsWithOneKeyDown : (State.reset.withFetchWord 16 0xFF0A).enabled
    ∧ fetch (State.reset.withFetchWord 16 0xFF0A) = .ok 0xFF0A#16 ∧ decode 0xFF0A#16 = .ldVxK 0xF := by decide
theorem witness_DecimalDigitsStored : (withI 0xFFD#16).i.toNat + 2 < 4096 ∧ 4096 ≤ (withI 0xFFE#16).i.toNat + 2 := by decide
theorem witness_RegisterBlockTransfers : (withI 0xFF0#16).i.toNat + (0xF#4).toNat < 4096
    ∧ (withI 0xFFF#16).i.toNat + (0x0#4).toNat < 4096 := by decide
theorem witness_BlockLoadRestoresBlockStore : ∃ t, (withI 0xFF0#16).i.toNat + (0xF#4).toNat < 4096
    ∧ exec (.ldMemVx 0xF) (withI 0xFF0#16) = .next t ∧ t.mem = t.mem ∧ t.i = t.i := ⟨_, by decide, rfl, rfl, rfl⟩
theorem witness_AccessOutsideMemoryRaises : ((0x2#4 : Nibble) ≠ 0#4 ∧ 4096 < (withI 0xFFF#16).i.toNat + (0x2#4).toNat)
    ∧ 4096 ≤ (withI 0xFFF#16).i.toNat + (0x1#4).toNat := by decide
theorem witness_WriteIsSeenByReadsAndKeepsTheForm : Memory.wf [(0x300, 5#8)] = true ∧ 4095 + [9#8].length ≤ 4096
    ∧ Memory.wf [] = true ∧ 4096 + ([] : List Byte).length ≤ 4096 := by decide
theorem witness_MemoriesThatReadAlikeAreEqual : Memory.wf [(0x000, 5#8), (0xFFF, 5#8)] = true
    ∧ ∀ a, Memory.read [(0x000, 5#8), (0xFFF, 5#8)] a = Memory.read [(0x000, 5#8), (0xFFF, 5#8)] a := ⟨by decide, fun _ => rfl⟩
/-- T149. -/
def patching : State := (((withI 0x202#16).setV 0 0x60).setV 1 0x07).withFetchWord 16 0xF155
theorem witness_StoreIntoNextInstructionIsFetched : patching.enabled ∧ fetch patching = .ok 0xF155#16
    ∧ decode 0xF155#16 = .ldMemVx 1 ∧ 1 ≤ (1#4).toNat ∧ patching.i = patching.pc + 2#16
    ∧ patching.i.toNat + (1#4).toNat < 4096 := by decide
/-- The last PC a fetch fits at, zeroed memory. -/
def lastPc : State := { State.reset with pc := 0xFFE#16 }
theorem witness_InstructionIsOneBigEndianWord : lastPc.pc.toNat + 2 ≤ 4096 := by decide
/-- RET with an empty stack, and with SP above its range, at 0x200. -/
def retAt (sp : Byte) : State := (withSp sp).withFetchWord 16 0x00EE
/-- All three clauses: an instruction that goes on, one that raises, one refused (log entry 6). -/
theorem witness_StepRunsTheDecodedInstruction :
    (lastPc.enabled ∧ lastPc.pc.toNat + 2 ≤ 4096
      ∧ decodeBytes [Memory.read lastPc.mem lastPc.pc.toNat, Memory.read lastPc.mem (lastPc.pc.toNat + 1)] = .ok (.sys 0, [])
      ∧ ∃ t, exec (.sys 0) (lastPc.setPc (lastPc.pc + 2#16)) = .next t ∧ t.fault = none)
    ∧ ((retAt 0).enabled ∧ (retAt 0).pc.toNat + 2 ≤ 4096
      ∧ decodeBytes [Memory.read (retAt 0).mem (retAt 0).pc.toNat, Memory.read (retAt 0).mem ((retAt 0).pc.toNat + 1)]
        = .ok (.ret, [])
      ∧ ∃ t r, exec .ret ((retAt 0).setPc ((retAt 0).pc + 2#16)) = .next t ∧ t.fault = some r)
    ∧ ((retAt 17).enabled ∧ exec .ret ((retAt 17).setPc ((retAt 17).pc + 2#16)) = .refused .stackPointerOutOfRange) :=
  ⟨⟨by decide, by decide, by decide, _, rfl, rfl⟩, ⟨by decide, by decide, by decide, _, _, rfl, rfl⟩, by decide, rfl⟩
/-- The execute clause (PC where no fetch fits) and the two host operations. -/
theorem witness_StepRunsTheDecodedInstruction_ports : ({ State.reset with pc := 0xFFFF#16 } : State).enabled
    ∧ (∃ t, step State.reset = .next t)
    ∧ ∃ t, execute 0x6A07#16 { State.reset with pc := 0xFFFF#16 } = .next t := ⟨by decide, ⟨_, rfl⟩, _, rfl⟩
theorem witness_FetchOutsideMemoryRaises : ({ State.reset with pc := 0xFFF#16 } : State).enabled
    ∧ 4095 ≤ ({ State.reset with pc := 0xFFF#16 } : State).pc.toNat := by decide
theorem witness_NoStepAfterFaultOrInKeyWait : (∃ r, faulted.fault = some r)
    ∧ waitingState.fault = none ∧ waitingState.wait = some 3#4 := ⟨⟨_, rfl⟩, rfl, rfl⟩
/-- One raise of each kind an instruction has. -/
theorem witness_RaisingChangesNothingButTheRecord :
    (∃ t r, State.reset.fault = none ∧ exec .ret State.reset = .next t ∧ t.fault = some r ∧ r.kind = .stackUnderflow)
    ∧ (∃ t r, (withSp 16).fault = none ∧ exec (.call 0) (withSp 16) = .next t ∧ t.fault = some r ∧ r.kind = .stackOverflow) :=
  ⟨⟨_, _, rfl, rfl, rfl, rfl⟩, _, _, rfl, rfl, rfl, rfl⟩
theorem witness_EachFaultHasItsInstructions :
    (∃ t r, (withI 0xFFF#16).fault = none ∧ exec (.ldVxMem 1) (withI 0xFFF#16) = .next t ∧ t.fault = some r
      ∧ r.kind = .memRange)
    ∧ (∃ t r, (State.reset.setV 1 16).fault = none ∧ exec (.skpVx 1) (State.reset.setV 1 16) = .next t ∧ t.fault = some r
      ∧ r.kind = .keyRange) := ⟨⟨_, _, rfl, rfl, rfl, rfl⟩, _, _, rfl, rfl, rfl, rfl⟩
theorem witness_RegistersChangeOnlyWhereNamed : ∃ t, exec (.ldVxMem 0xE) State.reset = .next t
    ∧ Instr.mayWriteReg (.ldVxMem 0xE) 0xF = false := ⟨_, rfl, by decide⟩
theorem witness_OnlyControlTransfersChangePc : ∃ t, exec (.ldBVx 0) State.reset = .next t ∧ Instr.mayWritePc (.ldBVx 0) = false :=
  ⟨_, rfl, rfl⟩
theorem witness_SpecialStateChangesOnlyByItsInstructions : ∃ t, exec (.drwVxVyN 0 0 5) State.reset = .next t := ⟨_, rfl⟩
/-- 3584 bytes fit and 3585 do not. -/
theorem witness_LoadCopiesOrReportsAnError : State.reset.fault = none ∧ 0x200 + (List.replicate 3584 0#8).length ≤ 4096
    ∧ 4096 < 0x200 + (List.replicate 3585 0#8).length := by
  simp only [List.length_replicate]; decide
theorem witness_BootRunsTheFirstWord : 0x200 + ((List.replicate 3582 0#8).length + 2) ≤ 4096
    ∧ 0x200 + (([] : List Byte).length + 2) ≤ 4096 := by
  simp only [List.length_replicate]; decide
theorem witness_TickCountsDownAndPortsShowIt : ((State.reset.setDt 0).setSt 255).enabled := by decide
theorem witness_TickFrozenWhileWaitingOrFaulted : (waitingState.wait ≠ none ∨ waitingState.fault ≠ none)
    ∧ (faulted.wait ≠ none ∨ faulted.fault ≠ none) := by decide
theorem witness_KeyEventsWriteTheirKey : (15 < 16 ∧ State.reset.fault = none ∧ State.reset.wait = none) ∧ 16 ≤ 16
    ∧ (0xE#4 : Nibble) ≠ BitVec.ofNat 4 15 := by decide
theorem witness_MappingIsInstalledAndQueried : ((65, 15#4) ∈ ([(65, 15#4), (66, 15#4)] : KeyMap)
      ∧ (([(65, 15#4), (66, 15#4)] : KeyMap).map Prod.fst).Nodup)
    ∧ 67 ∉ ([(65, 15#4), (66, 15#4)] : KeyMap).map Prod.fst := by decide
theorem witness_ScreenPortsAreBoundsChecked : faulted.fault ≠ none ∧ State.reset.fault = none ∧ (63 < 64 ∧ 31 < 32) ∧ (64 ≤ 64 ∨ 32 ≤ 0)
    ∧ (64 ≤ 0 ∨ 32 ≤ 32) := by decide
/-- An operation a faulted machine answers, and the two the statement sets apart. -/
theorem witness_FaultedMachineIsFrozen : faulted.fault ≠ none ∧ (∃ t a, perform .tick faulted = .next (t, a))
    ∧ (∃ t a, perform .initializeCore faulted = .next (t, a)) ∧ (∃ t a, perform (.setMapping []) faulted = .next (t, a))
    ∧ 15 < 16 := ⟨by decide, ⟨_, _, rfl⟩, ⟨_, _, rfl⟩, ⟨_, _, rfl⟩, by decide⟩
/-- A full stack and a byte stored at the last address. -/
def boundary : State := (withSp 16).setMem [(0xFFF, 1#8)]
theorem boundary_inv : boundary.Inv := ⟨rfl, by decide, by intro r h; cases h⟩
theorem faulted_inv : faulted.Inv := ⟨rfl, by decide, by intro r h; cases h; rfl⟩
theorem witness_StepKeepsTheInvariant : boundary.Inv ∧ ∃ t, step boundary = .next t := ⟨boundary_inv, _, rfl⟩
theorem witness_EveryHostOperationKeepsTheInvariant :
    (boundary.Inv ∧ ∃ t a, perform (.isSet 64 32) boundary = .next (t, a))
    ∧ (faulted.Inv ∧ ∃ t a, perform .initializeCore faulted = .next (t, a))
    ∧ ∃ t, boundary.reaches t := ⟨⟨boundary_inv, _, _, rfl⟩, ⟨faulted_inv, _, _, rfl⟩, _, [.tick, .step, .keyUp 15], _, rfl⟩
/-- PC at its bound, where the fetch raises, and at the last address a fetch fits at. -/
theorem witness_StepKeepsPcInRange :
    ({ State.reset with pc := 0x10FE#16 } : State).PcBounded ∧ lastPc.PcBounded
    ∧ (∃ t, step { State.reset with pc := 0x10FE#16 } = .next t) ∧ ∃ t, step lastPc = .next t := by
  refine ⟨⟨by decide, fun j h1 h2 => ?_⟩, ⟨by decide, fun j h1 h2 => ?_⟩, ⟨_, rfl⟩, _, rfl⟩ <;> interval_cases j <;> decide

end Sys2Proof.Tests
end

/-! PROOFS. R17: every instruction makes at most one check, before all its writes. The check of each instruction is
named here, `exec` is shown to follow it, and the statements about raising come from that. -/

namespace Sys2Proof.Machine

/-! ## The check of an instruction -/

/-- Whether an access answers, without what it answers. -/
def Access.check {α : Type} (a : Access α) : Access Unit := a.map fun _ => ()

theorem Access.check_map {α β : Type} (f : α → β) (a : Access α) : (a.map f).check = a.check := by
  cases a <;> rfl

@[simp] theorem Access.check_unit (a : Access Unit) : a.check = a := by
  cases a <;> rfl

@[simp] theorem readRange_check (m : Memory) (base len : Nat) : (readRange m base len).check = rangeCheck base len := by
  rw [readRange, Access.check_map, Access.check_unit]

@[simp] theorem writeRange_check (m : Memory) (base : Nat) (bytes : List Byte) :
    (writeRange m base bytes).check = rangeCheck base bytes.length := by
  rw [writeRange, Access.check_map, Access.check_unit]

/-- The one check an instruction makes before its writes (R17); the others have none. -/
def instrCheck (i : Instr) (s : State) : Access Unit :=
  match i with
  | .ret => (pop s).check
  | .call _ => (push s s.pc).check
  | .drwVxVyN _ _ n => rangeCheck s.i.toNat n.toNat
  | .skpVx x | .sknpVx x => (keyIndex (s.getV x)).check
  | .ldBVx _ => rangeCheck s.i.toNat 3
  | .ldMemVx x | .ldVxMem x => rangeCheck s.i.toNat (x.toNat + 1)
  | _ => .ok ()

/-- The outcome o of instruction i is what its check c says: a next state with the fault record as it was, the raise
with PC and the instruction's word, or the refusal. -/
def followsCheck (i : Instr) (s : State) (o : Host.Outcome State Fault Refusal) (c : Access Unit) : Prop :=
  match c with
  | .ok _ => ∃ t, o = .next t ∧ t.fault = s.fault
  | .raised kind info => o = .next (raise s kind (some s.pc) (some (encode i)) info)
  | .refused r => o = .refused r

/-- An instruction made by `attempt` follows the check of its access when its effect keeps the fault record. -/
theorem attempt_followsCheck {α : Type} (i : Instr) (s : State) {a : Access α} {effect : α → State} {c : Access Unit}
    (hc : a.check = c) (hkeep : ∀ v, a = .ok v → (effect v).fault = s.fault) :
    followsCheck i s (attempt s (encode i) a effect) c := by
  subst hc
  cases a with
  | ok v => exact ⟨effect v, rfl, hkeep v rfl⟩
  | raised kind info => exact rfl
  | refused r => exact rfl

@[simp] theorem skipIf_fault (c : Bool) (s : State) : (skipIf c s).fault = s.fault := by
  rw [skipIf_eq, State.setPc_fault]

theorem push_ok_fault {s t : State} {v : Word} (h : push s v = .ok t) : t.fault = s.fault := by
  rcases push_cases s v with ⟨-, he⟩ | ⟨-, he⟩ | ⟨-, he⟩ <;> cases he.symm.trans h
  rfl

theorem pop_ok_fault {s : State} {p : Word × State} (h : pop s = .ok p) : p.2.fault = s.fault := by
  rcases pop_cases s with ⟨-, he⟩ | ⟨-, he⟩ | ⟨-, he⟩ <;> cases he.symm.trans h
  rfl

/-- Every instruction follows its check (R17). -/
theorem exec_followsCheck (i : Instr) (s : State) : followsCheck i s (exec i s) (instrCheck i s) := by
  cases i with
  | ret => exact attempt_followsCheck .ret s rfl fun p hp => pop_ok_fault hp
  | call nnn => exact attempt_followsCheck (.call nnn) s rfl fun _ ht => (State.setPc_fault ..).trans (push_ok_fault ht)
  | drwVxVyN x y n => exact attempt_followsCheck (.drwVxVyN x y n) s (readRange_check ..) fun _ _ => rfl
  | skpVx x => exact attempt_followsCheck (.skpVx x) s rfl fun _ _ => skipIf_fault _ s
  | sknpVx x => exact attempt_followsCheck (.sknpVx x) s rfl fun _ _ => skipIf_fault _ s
  | ldBVx x => exact attempt_followsCheck (.ldBVx x) s (writeRange_check ..) fun _ _ => rfl
  | ldMemVx x =>
    have hc : (writeRange s.mem s.i.toNat (firstRegs s x)).check = rangeCheck s.i.toNat (x.toNat + 1) := by
      rw [writeRange_check, firstRegs_length]
    exact attempt_followsCheck (.ldMemVx x) s hc fun _ _ => rfl
  | ldVxMem x => exact attempt_followsCheck (.ldVxMem x) s (readRange_check ..) fun _ _ => rfl
  | seVxKk | sneVxKk | seVxVy | sneVxVy => exact ⟨_, rfl, skipIf_fault _ s⟩
  | _ => exact ⟨_, rfl, rfl⟩

/-- A fault recorded by an instruction is the raise of its check. -/
theorem exec_raises {i : Instr} {s t : State} {r : FaultRecord} (hs : s.fault = none) (h : exec i s = .next t)
    (hr : t.fault = some r) :
    ∃ kind info, instrCheck i s = .raised kind info ∧ t = raise s kind (some s.pc) (some (encode i)) info := by
  have hx := exec_followsCheck i s
  rw [h] at hx
  cases hc : instrCheck i s with
  | ok u =>
    rw [hc] at hx
    obtain ⟨t', ht, hf⟩ := hx
    cases ht
    rw [hf, hs] at hr
    cases hr
  | raised kind info =>
    rw [hc] at hx
    exact ⟨kind, info, rfl, Host.Outcome.next.inj hx⟩
  | refused q =>
    rw [hc] at hx
    cases hx

/-! ## The form of what a check raises -/

/-- Whatever the access raises makes a record of the form of its kind, with a pc and a word (R221, R222). -/
def Access.RaisesWf {α : Type} (a : Access α) : Prop :=
  ∀ kind info, a = .raised kind info → ∀ pc word, FaultRecord.wf ⟨kind, some pc, some word, info⟩ = true

theorem Access.raisesWf_check {α : Type} {a : Access α} (h : a.RaisesWf) : a.check.RaisesWf := by
  intro kind info hc
  cases a <;> cases hc
  exact h kind info rfl

theorem rangeCheck_raisesWf (base len : Nat) : (rangeCheck base len).RaisesWf := by
  intro kind info h pc word
  rcases rangeCheck_cases base len with ⟨-, he⟩ | ⟨-, he⟩ <;> cases he.symm.trans h
  simp [FaultRecord.wf]

theorem keyIndex_raisesWf (b : Byte) : (keyIndex b).RaisesWf := by
  intro kind info h pc word
  rcases keyIndex_cases b with ⟨-, he⟩ | ⟨hb, he⟩ <;> cases he.symm.trans h
  simpa [FaultRecord.wf] using hb

theorem push_raisesWf (s : State) (v : Word) : (push s v).RaisesWf := by
  intro kind info h pc word
  rcases push_cases s v with ⟨-, he⟩ | ⟨-, he⟩ | ⟨-, he⟩ <;> cases he.symm.trans h
  rfl

theorem pop_raisesWf (s : State) : (pop s).RaisesWf := by
  intro kind info h pc word
  rcases pop_cases s with ⟨-, he⟩ | ⟨-, he⟩ | ⟨-, he⟩ <;> cases he.symm.trans h
  rfl

theorem instrCheck_raisesWf (i : Instr) (s : State) : (instrCheck i s).RaisesWf := by
  cases i with
  | ret => exact Access.raisesWf_check (pop_raisesWf s)
  | call => exact Access.raisesWf_check (push_raisesWf s s.pc)
  | skpVx x | sknpVx x => exact Access.raisesWf_check (keyIndex_raisesWf (s.getV x))
  | drwVxVyN | ldBVx | ldMemVx | ldVxMem => exact rangeCheck_raisesWf _ _
  | _ => exact fun _ _ h => nomatch h

/-- Settles O43: the record is the raise of the instruction's one check, and a raise writes nothing else. -/
theorem raisingChangesNothingButTheRecord : Obligations.RaisingChangesNothingButTheRecord := by
  intro i s t r hs h hr
  obtain ⟨kind, info, hc, rfl⟩ := exec_raises hs h hr
  rw [raise_fault] at hr
  cases hr
  exact ⟨⟨raise_frame .., fun _ => rfl⟩, rfl, rfl, instrCheck_raisesWf i s kind info hc s.pc (encode i)⟩

end Sys2Proof.Machine

/-! PROOFS. R31: the canonical form of memory is canonical (log entry 5). A listing in it holds an address exactly when the
address reads otherwise than the reset image, so the reads fix what the listing finds, and a rising listing is fixed by
what it finds. -/

namespace Sys2Proof.Machine

/-- Nothing is found below the first listed address. -/
theorem Memory.find_eq_none_of_lt {m : Memory} {a : Nat} (h : ∀ c ∈ m, a < c.1) : Memory.find a m = none := by
  induction m with
  | nil => rfl
  | cons c m ih =>
    obtain ⟨k, w⟩ := c
    have hk : a < k := h (k, w) List.mem_cons_self
    rw [Memory.find, if_neg (by omega)]
    exact ih fun c hc => h c (List.mem_cons_of_mem _ hc)

/-- The canonical form lists no byte of the reset image. -/
theorem Memory.find_ne_resetByte {m : Memory} {a : Nat} {v : Byte} (hm : Memory.wf m = true)
    (h : Memory.find a m = some v) : v ≠ resetByte a := by
  induction m with
  | nil => cases h
  | cons c m ih =>
    obtain ⟨k, w⟩ := c
    obtain ⟨-, hw, -, hm⟩ := Memory.wf_cons.mp hm
    by_cases hk : a = k
    · subst hk
      rw [Memory.find, if_pos rfl] at h
      cases h
      exact hw
    · rw [Memory.find, if_neg hk] at h
      exact ih hm h

/-- In the canonical form the byte read at an address tells whether the address is listed, and with which byte. -/
theorem Memory.find_eq_of_read {m : Memory} (hm : Memory.wf m = true) (a : Nat) :
    Memory.find a m = if Memory.read m a = resetByte a then none else some (Memory.read m a) := by
  cases h : Memory.find a m with
  | none => simp [Memory.read, h]
  | some v => simp [Memory.read, h, Memory.find_ne_resetByte hm h]

/-- A canonical listing is fixed by what it finds. -/
theorem Memory.eq_of_find_eq {m m' : Memory} (hm : Memory.wf m = true) (hm' : Memory.wf m' = true)
    (h : ∀ a, Memory.find a m = Memory.find a m') : m = m' := by
  induction m generalizing m' with
  | nil =>
    cases m' with
    | nil => rfl
    | cons d m' => simpa [Memory.find] using h d.1
  | cons c m ih =>
    cases m' with
    | nil => simpa [Memory.find] using h c.1
    | cons d m' =>
      obtain ⟨a, v⟩ := c
      obtain ⟨b, w⟩ := d
      obtain ⟨-, -, ha, hwf⟩ := Memory.wf_cons.mp hm
      obtain ⟨-, -, hb, hwf'⟩ := Memory.wf_cons.mp hm'
      have hma : Memory.find a m = none := Memory.find_eq_none_of_lt ha
      have hmb : Memory.find b m' = none := Memory.find_eq_none_of_lt hb
      obtain hlt | rfl | hlt := Nat.lt_trichotomy a b
      · have hno : Memory.find a m' = none := Memory.find_eq_none_of_lt fun c hc => hlt.trans (hb c hc)
        simpa [Memory.find, hlt.ne, hno] using h a
      · have hv : v = w := by simpa [Memory.find] using h a
        have htail : m = m' := ih hwf hwf' fun k => by
          by_cases hk : k = a
          · rw [hk, hma, hmb]
          · simpa [Memory.find, hk] using h k
        rw [hv, htail]
      · have hno : Memory.find b m = none := Memory.find_eq_none_of_lt fun c hc => hlt.trans (ha c hc)
        simpa [Memory.find, hlt.ne, hno] using h b

/-- Settles O38: the reads fix what each listing finds, and that fixes the listing. -/
theorem memoriesThatReadAlikeAreEqual : Obligations.MemoriesThatReadAlikeAreEqual := by
  intro m m' hm hm' h
  exact Memory.eq_of_find_eq hm hm' fun a => by
    rw [Memory.find_eq_of_read hm, Memory.find_eq_of_read hm', h a]

end Sys2Proof.Machine

/-! PROOFS. What an instruction can change, said once: `Effect` lists the forms the state after `exec` can have, and the
frames, the invariant and the PC bound each follow by a case analysis over those forms. -/

namespace Sys2Proof.Machine

/-! ## The effect of an instruction -/

/-- Instruction i takes s to t: a raise, or one of the writes its rules name. -/
inductive Effect (i : Instr) (s : State) : State → Prop
  /-- The check failed (R17). -/
  | raised (kind : Fault) (info : FaultInfo) : Effect i s (raise s kind (some s.pc) (some (encode i)) info)
  /-- Registers the instruction may write, and the count of draws (R20, R21). -/
  | regs (v : Vector Byte 16) (n : Nat) (hv : sameRegsBut s (s.setRegs v) i.mayWriteReg) :
      Effect i s ((s.setRegs v).setDraws n)
  /-- SE, SNE, SKP and SKNP (R104 to R107, R170, R171). -/
  | skipped (c : Bool) (hi : i.mayWritePc = true) : Effect i s (skipIf c s)
  /-- JP, and JP V0 with its largest target (R102, R108). -/
  | jumped (a : Word) (hi : i.mayWritePc = true) (ha : a.toNat ≤ 0x10FE) : Effect i s (s.setPc a)
  /-- CALL with room on the stack (R103). -/
  | called (nnn : Addr) (hi : i = .call nnn) (hsp : s.sp.toNat < 16) :
      Effect i s ((s.setStack (s.sp + 1#8) (s.stack.setIfInBounds s.sp.toNat s.pc)).setPc (addrWord nnn))
  /-- RET with an address on the stack (R101). -/
  | returned (hi : i = .ret) (hsp : 1 ≤ s.sp.toNat ∧ s.sp.toNat ≤ 16) :
      Effect i s ((s.setStack (s.sp - 1#8) s.stack).setPc (s.stackSlot s.sp.toNat))
  /-- LD I, ADD I and LD F (R154, R190, R194). -/
  | indexed (a : Word) (hi : (∃ nnn, i = .ldINnn nnn) ∨ (∃ x, i = .addIVx x) ∨ ∃ x, i = .ldFVx x) : Effect i s (s.setI a)
  /-- LD DT, Vx (R192). -/
  | delayed (x : Nibble) (hi : i = .ldDtVx x) : Effect i s (s.setDt (s.getV x))
  /-- LD ST, Vx (R193). -/
  | sounded (x : Nibble) (hi : i = .ldStVx x) : Effect i s (s.setSt (s.getV x))
  /-- CLS (R152). -/
  | cleared (hi : i = .cls) : Effect i s (s.setFb Screen.blank)
  /-- DRW (R153). -/
  | drawn (x y n : Nibble) (rows : List Byte) (hi : i = .drwVxVyN x y n) : Effect i s (drawAt s x y rows)
  /-- LD B and LD [I], Vx (R195, R196). -/
  | stored (bytes : List Byte) (m : Memory) (hi : (∃ x, i = .ldBVx x) ∨ ∃ x, i = .ldMemVx x)
      (hm : writeRange s.mem s.i.toNat bytes = .ok m) : Effect i s (s.setMem m)
  /-- LD Vx, K (R172). -/
  | waiting (x : Nibble) (hi : i = .ldVxK x) : Effect i s (s.setWait (some x))

/-! ## Registers an instruction may write -/

theorem mayWriteReg_destination {i : Instr} {x : Nibble} (h : i.destination = some x) : i.mayWriteReg x = true := by
  simp [Instr.mayWriteReg, h]

theorem mayWriteReg_vf {i : Instr} (h : i.writesFlag = true) : i.mayWriteReg vf = true := by
  simp [Instr.mayWriteReg, h]

/-- A write of a register the predicate picks leaves the others as they were. -/
theorem sameRegsBut_setV {s t : State} {p : Nibble → Bool} {x : Nibble} (b : Byte) (h : sameRegsBut s t p)
    (hx : p x = true) : sameRegsBut s (t.setV x b) p := by
  intro z hz
  have hne : x ≠ z := by
    rintro rfl
    exact absurd (hx.symm.trans hz) (by decide)
  rw [State.getV_setV_other t b hne, h z hz]

theorem sameRegsBut_drawAt {s : State} {p : Nibble → Bool} (x y : Nibble) (rows : List Byte) (h : p vf = true) :
    sameRegsBut s (drawAt s x y rows) p :=
  sameRegsBut_setV _ (fun _ _ => rfl) h

/-- A checked read that answers gives as many bytes as asked for. -/
theorem readRange_ok_length {m : Memory} {base len : Nat} {bytes : List Byte} (h : readRange m base len = .ok bytes) :
    bytes.length = len := by
  rcases rangeCheck_cases base len with ⟨-, hc⟩ | ⟨-, hc⟩ <;> rw [readRange, hc] at h <;> cases h
  exact Memory.readBytes_length m base len

/-- A block load of as many bytes as V0 to Vx are leaves the registers above Vx as they were (R197). -/
theorem sameRegsBut_loadRegs {s : State} {x : Nibble} {bytes : List Byte} (h : bytes.length = x.toNat + 1) :
    sameRegsBut s (s.setRegs (loadRegs s.v 0 bytes)) (Instr.mayWriteReg (.ldVxMem x)) := by
  intro z hz
  have hlt : x.toNat < z.toNat := by simpa [Instr.mayWriteReg, Instr.destination, Instr.writesFlag] using hz
  have hout : ¬(0 ≤ z.toNat ∧ z.toNat < 0 + bytes.length) := by omega
  rw [State.getV, State.setRegs_v, loadRegs_getElem, if_neg hout, State.getV]

/-! ## Every instruction has one of these effects -/

theorem Effect.none (i : Instr) (s : State) : Effect i s s := .regs s.v s.draws fun _ _ => rfl

/-- A write of the named destination. -/
theorem Effect.setV {i : Instr} {x : Nibble} (s : State) (b : Byte) (hx : i.destination = some x) :
    Effect i s (s.setV x b) :=
  .regs _ s.draws (sameRegsBut_setV b (fun _ _ => rfl) (mayWriteReg_destination hx))

/-- A write of VF and then of the named destination. -/
theorem Effect.setV_setV_vf {i : Instr} {x : Nibble} (s : State) (f b : Byte) (hx : i.destination = some x)
    (hf : i.writesFlag = true) : Effect i s ((s.setV vf f).setV x b) :=
  .regs _ s.draws
    (sameRegsBut_setV b (sameRegsBut_setV f (fun _ _ => rfl) (mayWriteReg_vf hf)) (mayWriteReg_destination hx))

/-- An instruction made by `attempt` has the effect it names or raises. -/
theorem Effect.of_attempt {α : Type} {i : Instr} {s t : State} {a : Access α} {effect : α → State}
    (h : attempt s (encode i) a effect = .next t) (hok : ∀ v, a = .ok v → Effect i s (effect v)) : Effect i s t := by
  cases a with
  | ok v => cases h; exact hok v rfl
  | raised kind info => cases h; exact .raised kind info
  | refused r => cases h

/-- Everything `exec` can answer a next state with. -/
theorem exec_effect {i : Instr} {s t : State} (h : exec i s = .next t) : Effect i s t := by
  cases i with
  | sys | nop => cases h; exact .none _ s
  | ldVxKk | addVxKk | ldVxVy | orVxVy | andVxVy | xorVxVy | ldVxDt => cases h; exact .setV s _ rfl
  | addVxVy | subVxVy | shrVx | subnVxVy | shlVx => cases h; exact .setV_setV_vf s _ _ rfl rfl
  | rndVxKk x kk =>
    cases h
    exact .regs _ _ (sameRegsBut_setV _ (fun _ _ => rfl) (mayWriteReg_destination rfl))
  | ldVxMem x => exact .of_attempt h fun _ hb => .regs _ s.draws (sameRegsBut_loadRegs (readRange_ok_length hb))
  | seVxKk | sneVxKk | seVxVy | sneVxVy => cases h; exact .skipped _ rfl
  | skpVx | sknpVx => exact .of_attempt h fun _ _ => .skipped _ rfl
  | jp nnn =>
    cases h
    exact .jumped _ rfl (by rw [addrWord_toNat]; omega)
  | jpV0Nnn nnn =>
    cases h
    exact .jumped _ rfl (by rw [offsetTarget_toNat]; omega)
  | call nnn =>
    refine .of_attempt h fun u hu => ?_
    rcases push_cases s s.pc with ⟨hsp, he⟩ | ⟨-, he⟩ | ⟨-, he⟩ <;> cases he.symm.trans hu
    exact .called nnn rfl hsp
  | ret =>
    refine .of_attempt h fun p hp => ?_
    rcases pop_cases s with ⟨-, he⟩ | ⟨hsp, he⟩ | ⟨-, he⟩ <;> cases he.symm.trans hp
    exact .returned rfl hsp
  | ldINnn nnn => cases h; exact .indexed _ (.inl ⟨nnn, rfl⟩)
  | addIVx x => cases h; exact .indexed _ (.inr (.inl ⟨x, rfl⟩))
  | ldFVx x => cases h; exact .indexed _ (.inr (.inr ⟨x, rfl⟩))
  | ldDtVx x => cases h; exact .delayed x rfl
  | ldStVx x => cases h; exact .sounded x rfl
  | cls => cases h; exact .cleared rfl
  | drwVxVyN x y n => exact .of_attempt h fun rows _ => .drawn x y n rows rfl
  | ldBVx x => exact .of_attempt h fun m hm => .stored _ m (.inl ⟨x, rfl⟩) hm
  | ldMemVx x => exact .of_attempt h fun m hm => .stored _ m (.inr ⟨x, rfl⟩) hm
  | ldVxK x => cases h; exact .waiting x rfl

/-! ## What an instruction leaves unchanged -/

/-- Settles O45: the effects on registers keep those outside `mayWriteReg`; of the others only DRW writes one, VF. -/
theorem registersChangeOnlyWhereNamed : Obligations.RegistersChangeOnlyWhereNamed := by
  intro i s t z h hz
  cases exec_effect h with
  | regs v n hv => exact hv z hz
  | drawn x y n rows hi => exact sameRegsBut_drawAt x y rows (mayWriteReg_vf (hi ▸ rfl)) z hz
  | skipped c => rw [skipIf_eq]; rfl
  | _ => rfl

/-- Settles O47: each effect writes one of the fields, under the instructions its hypothesis names. -/
theorem specialStateChangesOnlyByItsInstructions : Obligations.SpecialStateChangesOnlyByItsInstructions := by
  intro i s t h
  cases exec_effect h
  case raised | regs | jumped => simp [sameMemory, raise]
  case skipped => simp [sameMemory, skipIf_eq]
  case drawn x y n rows hi => simp [sameMemory, drawAt, hi]
  case called _ hi _ | returned hi _ | indexed _ hi | delayed _ hi | sounded _ hi | cleared hi | stored _ _ hi _
      | waiting _ hi =>
    simp [sameMemory, hi]

/-! ## The invariant -/

theorem exec_keeps_memory_wf {i : Instr} {s t : State} (hs : Memory.wf s.mem = true) (h : exec i s = .next t) :
    Memory.wf t.mem = true := by
  cases exec_effect h with
  | stored bytes m hi hm => exact writeRange_wf hs hm
  | skipped c => rw [skipIf_eq]; exact hs
  | _ => exact hs

theorem exec_keeps_sp_le {i : Instr} {s t : State} (hs : s.sp.toNat ≤ 16) (h : exec i s = .next t) :
    t.sp.toNat ≤ 16 := by
  cases exec_effect h with
  | called nnn hi hsp => simp only [State.setPc_sp, State.setStack_sp]; bv_omega
  | returned hi hsp => simp only [State.setPc_sp, State.setStack_sp]; bv_omega
  | skipped c => rw [skipIf_eq]; exact hs
  | _ => exact hs

theorem exec_keeps_faultRecord_wf {i : Instr} {s t : State} (hs : ∀ r, s.fault = some r → r.wf = true)
    (h : exec i s = .next t) : ∀ r, t.fault = some r → r.wf = true := by
  have hx := exec_followsCheck i s
  rw [h] at hx
  cases hc : instrCheck i s with
  | ok u =>
    rw [hc] at hx
    obtain ⟨t', ht, hf⟩ := hx
    cases ht
    rwa [hf]
  | raised kind info =>
    rw [hc] at hx
    cases hx
    rintro r ⟨⟩
    exact instrCheck_raisesWf i s kind info hc s.pc (encode i)
  | refused q =>
    rw [hc] at hx
    cases hx

/-- Every instruction keeps the invariant, wherever PC stands and whatever the record holds. -/
theorem exec_keeps_inv {i : Instr} {s t : State} (hs : s.Inv) (h : exec i s = .next t) : t.Inv :=
  ⟨exec_keeps_memory_wf hs.memory h, exec_keeps_sp_le hs.stackPointer h, exec_keeps_faultRecord_wf hs.faultRecord h⟩

/-- Recording a well-formed fault keeps the invariant. -/
theorem inv_setFault {s : State} {r : FaultRecord} (hs : s.Inv) (hr : r.wf = true) : (s.setFault (some r)).Inv :=
  ⟨hs.memory, hs.stackPointer, by rintro _ ⟨⟩; exact hr⟩

theorem advance_inv {s : State} (hs : s.Inv) : (advance s).Inv := ⟨hs.memory, hs.stackPointer, hs.faultRecord⟩

/-- Settles O58: a fetch that raises and an instruction that raises record a fault of its form; any other step is `exec`
from the advanced state. -/
theorem stepKeepsTheInvariant : Obligations.StepKeepsTheInvariant := by
  intro s t hs h
  obtain ⟨⟨hfault, -⟩, ⟨hpc, rfl⟩ | ⟨-, hrun⟩⟩ := step_next h
  · exact inv_setFault hs (by simp [FaultRecord.wf])
  · obtain ⟨hexec, -⟩ | ⟨u, r, hexec, hr, rfl⟩ := settle_next hrun
    · exact exec_keeps_inv (advance_inv hs) hexec
    · obtain ⟨kind, info, hc, rfl⟩ := exec_raises (s := advance s) hfault hexec hr
      rw [raise_fault] at hr
      cases hr
      exact inv_setFault hs (instrCheck_raisesWf _ _ kind info hc s.pc _)

/-! ## The bound on PC -/

theorem pc_add_two_toNat {s : State} (hs : s.PcBounded) : (s.pc + 2#16).toNat = s.pc.toNat + 2 := by
  have := hs.pc
  bv_omega

/-- Push of a value within a bound on the slots keeps the bound. -/
theorem stackSlot_push_le {s : State} {v : Word} {n : Nat} (hsp : s.sp.toNat < 16) (hv : v.toNat ≤ n)
    (hslots : ∀ j, 1 ≤ j → j ≤ 16 → (s.stackSlot j).toNat ≤ n) (j : Nat) (h1 : 1 ≤ j) (h16 : j ≤ 16) :
    ((s.setStack (s.sp + 1#8) (s.stack.setIfInBounds s.sp.toNat v)).stackSlot j).toNat ≤ n := by
  rw [stackSlot_push v hsp ⟨h1, h16⟩]
  split
  · exact hv
  · exact hslots j h1 h16

/-- From a PC a fetch can have advanced to, every instruction keeps PC and the slots in their bounds (R108, R109). -/
theorem exec_pcBounded {i : Instr} {s t : State} (hs : s.PcBounded) (hpc : s.pc.toNat ≤ 4096)
    (h : exec i s = .next t) : t.PcBounded := by
  cases exec_effect h with
  | skipped c =>
    rw [skipIf_eq]
    refine ⟨?_, hs.slots⟩
    cases c with
    | false => exact hs.pc
    | true => exact (pc_add_two_toNat hs).le.trans (by omega)
  | jumped a hi ha => exact ⟨ha, hs.slots⟩
  | called nnn hi hsp =>
    refine ⟨?_, stackSlot_push_le hsp hpc hs.slots⟩
    rw [State.setPc_pc, addrWord_toNat]
    omega
  | returned hi hsp => exact ⟨(hs.slots _ hsp.1 hsp.2).trans (by decide), hs.slots⟩
  | _ => exact ⟨hs.pc, hs.slots⟩

/-- Settles O60: a step that raises leaves PC and the stack; any other is `exec` after a fetch that fits in memory, so PC
has advanced to at most 4096. -/
theorem stepKeepsPcInRange : Obligations.StepKeepsPcInRange := by
  intro s t hs h
  refine ⟨?_, pc_add_two_toNat hs⟩
  obtain ⟨-, ⟨-, rfl⟩ | ⟨hfit, hrun⟩⟩ := step_next h
  · exact ⟨hs.pc, hs.slots⟩
  · obtain ⟨hexec, -⟩ | ⟨u, r, -, -, rfl⟩ := settle_next hrun
    · have hadv : (advance s).pc.toNat ≤ 4096 := (pc_add_two_toNat hs).le.trans hfit
      exact exec_pcBounded ⟨hadv.trans (by decide), hs.slots⟩ hadv hexec
    · exact ⟨hs.pc, hs.slots⟩

end Sys2Proof.Machine

/-! PROOFS. Memory as its accesses show it (20_memory.md): a run of writes read back byte by byte, the `load` port, and
the two ends of a fetch, a word stored just before it and a PC outside memory. -/

namespace Sys2Proof.Machine

/-! ## A run of writes, read back -/

/-- Inside a run of writes a read gives the byte stored there (R61, R62). -/
theorem Memory.read_writeBytes_inside (m : Memory) (base : Nat) {bytes : List Byte} {j : Nat} (h : j < bytes.length) :
    Memory.read (Memory.writeBytes m base bytes) (base + j) = bytes.getD j 0#8 := by
  rw [Memory.read_writeBytes, if_pos ⟨by omega, by omega⟩, Nat.add_sub_cancel_left]

theorem Memory.some_read_writeBytes_inside (m : Memory) (base : Nat) {bytes : List Byte} {j : Nat}
    (h : j < bytes.length) : some (Memory.read (Memory.writeBytes m base bytes) (base + j)) = bytes[j]? := by
  rw [Memory.read_writeBytes_inside m base h, List.getD_eq_getElem _ _ h, List.getElem?_eq_getElem h]

/-- Outside a run of writes every read is as before. -/
theorem Memory.read_writeBytes_outside (m : Memory) {base a : Nat} {bytes : List Byte}
    (h : a < base ∨ base + bytes.length ≤ a) :
    Memory.read (Memory.writeBytes m base bytes) a = Memory.read m a := by
  rw [Memory.read_writeBytes, if_neg (by omega)]

/-- Settles O37: the form is kept by every write inside the address space; the reads are those inside and outside a run
of writes. -/
theorem writeIsSeenByReadsAndKeepsTheForm : Obligations.WriteIsSeenByReadsAndKeepsTheForm := by
  intro m base bytes hm hfit
  exact ⟨Memory.wf_writeBytes bytes hm (.inr hfit), fun _ hj => Memory.some_read_writeBytes_inside m base hj,
    fun _ ha => Memory.read_writeBytes_outside m ha⟩

/-! ## The load port -/

/-- A program that does not fit is reported (R68). -/
theorem loadProgram_tooLong {bytes : List Byte} {s : State} (hs : s.fault = none)
    (h : 4096 < 0x200 + bytes.length) : loadProgram bytes s = (s, .loadError) := by
  rw [loadProgram, if_neg (by simp [hs]), if_pos h]

/-- A program that fits is copied to LOAD_OFFSET (R68). -/
theorem loadProgram_fits {bytes : List Byte} {s : State} (hs : s.fault = none) (h : 0x200 + bytes.length ≤ 4096) :
    loadProgram bytes s = (s.setMem (Memory.writeBytes s.mem 0x200 bytes), .loaded) := by
  rw [loadProgram, if_neg (by simp [hs]), if_neg (Nat.not_lt.mpr h)]

/-- A run of writes stored in the state changes nothing outside it. -/
theorem setMem_writeBytes_onlyBytes (s : State) (base : Nat) (bytes : List Byte) :
    onlyBytes s (s.setMem (Memory.writeBytes s.mem base bytes)) base bytes.length :=
  ⟨rfl, fun _ ha => Memory.read_writeBytes_outside s.mem ha⟩

/-- Settles O49: the load that fits is one run of writes from 0x200. -/
theorem loadCopiesOrReportsAnError : Obligations.LoadCopiesOrReportsAnError := by
  intro bytes s hs
  refine ⟨fun hlong => ?_, fun hfit => ⟨_, ?_, ?_, setMem_writeBytes_onlyBytes s 0x200 bytes⟩⟩
  · rw [perform, loadProgram_tooLong hs hlong]
  · rw [perform, loadProgram_fits hs hfit]
  · exact fun _ hj => Memory.some_read_writeBytes_inside s.mem 0x200 hj

/-! ## The enabled step -/

/-- An enabled step is the fetch and the run of what it fetched (R86). -/
theorem step_of_enabled {s : State} (h : s.enabled) : step s = fetchAndRun exec s := by
  obtain ⟨hfault, hwait⟩ := h
  simp only [step, stepWith, hfault, hwait]

theorem step_of_fetch_ok {s : State} {w : Word} (h : s.enabled) (hf : fetch s = .ok w) :
    step s = settle s (exec (decode w) (advance s)) := by
  rw [step_of_enabled h, fetchAndRun, hf]

theorem step_of_fetch_raised {s : State} {kind : Fault} {info : FaultInfo} (h : s.enabled)
    (hf : fetch s = .raised kind info) : step s = .next (raise s kind (some s.pc) none info) := by
  rw [step_of_enabled h, fetchAndRun, hf]

/-- An instruction that raised nothing is left as it ended. -/
theorem settle_of_no_fault {s t : State} (h : t.fault = none) : settle s (.next t) = .next t := by
  simp only [settle, h]

theorem fetch_ok {s : State} (h : s.pc.toNat + 2 ≤ 4096) : fetch s = .ok (readWord s.mem s.pc.toNat) := by
  rw [fetch, rangeCheck_ok (.inr h), Access.map]

theorem fetch_raised {s : State} (h : 4096 < s.pc.toNat + 2) :
    fetch s = .raised .memRange (.address (max s.pc.toNat 4096)) := by
  rw [fetch, rangeCheck_raised (by decide) h, Access.map]

/-! ## A fetch outside memory -/

/-- The address a failing range check records is the lowest one outside memory (R223). -/
theorem lowestOutside_max {base len : Nat} (h0 : len ≠ 0) (h : 4096 < base + len) :
    lowestOutside base len (max base 4096) := by
  refine ⟨le_max_right .., ⟨max base 4096 - base, by omega, by omega⟩, fun j _ hout => ?_⟩
  exact max_le (Nat.le_add_right ..) hout

/-- Settles O41: from PC 4095 on one of the two bytes lies outside memory, so the fetch raises. -/
theorem fetchOutsideMemoryRaises : Obligations.FetchOutsideMemoryRaises := by
  intro s hs hpc
  have hout : 4096 < s.pc.toNat + 2 := by omega
  exact ⟨_, lowestOutside_max (by decide) hout, step_of_fetch_raised hs (fetch_raised hout)⟩

/-! ## A block store over the next instruction -/

/-- LD [I], Vx with all its bytes in memory stores V0 to Vx from I (R196). -/
theorem exec_ldMemVx_stores {x : Nibble} {s : State} (h : s.i.toNat + x.toNat < 4096) :
    exec (.ldMemVx x) s = .next (s.setMem (Memory.writeBytes s.mem s.i.toNat (firstRegs s x))) := by
  have hfit : s.i.toNat + (firstRegs s x).length ≤ 4096 := by rw [firstRegs_length]; omega
  rw [exec, execLdMemVx, writeRange_ok s.mem (.inr hfit), attempt_ok]

/-- The word at the start of a stored register block is V0 and V1 (R63). -/
theorem readWord_writeBytes_firstRegs (m : Memory) (a : Nat) (s : State) {x : Nibble} (h : 1 ≤ x.toNat) :
    readWord (Memory.writeBytes m a (firstRegs s x)) a = s.getV 0 ++ s.getV 1 := by
  have hlen : 1 < (firstRegs s x).length := by rw [firstRegs_length]; omega
  have hhigh : Memory.read (Memory.writeBytes m a (firstRegs s x)) a = s.getV 0 :=
    (Memory.read_writeBytes_inside m a (Nat.zero_lt_of_lt hlen)).trans (firstRegs_getD s x 0 (Nat.zero_le _))
  have hlow : Memory.read (Memory.writeBytes m a (firstRegs s x)) (a + 1) = s.getV 1 :=
    (Memory.read_writeBytes_inside m a hlen).trans (firstRegs_getD s x 1 h)
  rw [readWord, hhigh, hlow, wordOfBytes]

/-- The fetch from a PC at I, once V0 to Vx are stored there, gives the word of V0 and V1. -/
theorem fetch_setMem_writeBytes_firstRegs {s : State} {x : Nibble} (hi : s.i = s.pc) (hx : 1 ≤ x.toNat)
    (hfit : s.i.toNat + x.toNat < 4096) :
    fetch (s.setMem (Memory.writeBytes s.mem s.i.toNat (firstRegs s x))) = .ok (s.getV 0 ++ s.getV 1) := by
  rw [hi] at hfit ⊢
  rw [fetch_ok (by simp only [State.setMem_pc]; omega), State.setMem_mem, State.setMem_pc,
    readWord_writeBytes_firstRegs s.mem _ s hx]

/-- Settles O39: the advanced state has PC at I, stores V0 to Vx there, and the next fetch reads memory as it is. -/
theorem storeIntoNextInstructionIsFetched : Obligations.StoreIntoNextInstructionIsFetched := by
  intro x s w hs hf hw hx hi hfit
  have hstep : step s = .next ((advance s).setMem (Memory.writeBytes s.mem s.i.toNat (firstRegs (advance s) x))) := by
    rw [step_of_fetch_ok hs hf, hw, exec_ldMemVx_stores (s := advance s) hfit]
    exact settle_of_no_fault hs.1
  exact ⟨_, hstep, rfl, fetch_setMem_writeBytes_firstRegs (s := advance s) hi hx hfit⟩

end Sys2Proof.Machine

/-! PROOFS. Words and their execution (30_encoding.md): every instruction as one big-endian word, the no-op space, and
what `step` and `execute` do with a decoded word when they are enabled and when they are not. -/

namespace Sys2Proof

/-! ## Words as byte pairs -/

/-- The value of a big-endian byte pair (R63, R80). -/
theorem wordOfBytes_toNat (hi lo : Byte) : (wordOfBytes hi lo).toNat = 256 * hi.toNat + lo.toNat := by
  rw [wordOfBytes, BitVec.toNat_append, ← Nat.shiftLeft_add_eq_or_of_lt lo.isLt, Nat.shiftLeft_eq, Nat.mul_comm]

/-! ## The words of the no-op space (R84) -/

theorem decode_of_family0 {w : Word} (h : opField w = 0x0#4) : decode w = decodeFamily0 w := by
  simp [decode, h]

theorem decode_of_family8 {w : Word} (h : opField w = 0x8#4) : decode w = decodeFamily8 w := by
  simp [decode, h]

theorem decode_of_familyE {w : Word} (h : opField w = 0xE#4) : decode w = decodeFamilyE w := by
  simp [decode, h]

theorem decode_of_familyF {w : Word} (h : opField w = 0xF#4) : decode w = decodeFamilyF w := by
  simp [decode, h]

theorem decodeFamily0_sys {w : Word} (hcls : w ≠ 0x00E0#16) (hret : w ≠ 0x00EE#16) :
    decodeFamily0 w = .sys (nnnField w) := by
  rw [decodeFamily0, if_neg hcls, if_neg hret]

/-- An unused low nibble differs from each of the nine sub-opcodes of family 8 (D6). -/
theorem decodeFamily8_nop {w : Word} (h : nField w ∈ [0x8#4, 0x9#4, 0xA#4, 0xB#4, 0xC#4, 0xD#4, 0xF#4]) :
    decodeFamily8 w = .nop w := by
  simp only [List.mem_cons, List.not_mem_nil, or_false] at h
  rcases h with h | h | h | h | h | h | h <;> simp [decodeFamily8, h]

theorem decodeFamilyE_nop {w : Word} (h : kkField w ∉ [0x9E#8, 0xA1#8]) : decodeFamilyE w = .nop w := by
  simp only [List.mem_cons, List.not_mem_nil, or_false, not_or] at h
  simp only [decodeFamilyE, h, if_false]

theorem decodeFamilyF_nop {w : Word}
    (h : kkField w ∉ [0x07#8, 0x0A#8, 0x15#8, 0x18#8, 0x1E#8, 0x29#8, 0x33#8, 0x55#8, 0x65#8]) :
    decodeFamilyF w = .nop w := by
  simp only [List.mem_cons, List.not_mem_nil, or_false, not_or] at h
  simp only [decodeFamilyF, h, if_false]

end Sys2Proof

namespace Sys2Proof.Machine

/-- Settles O6: the decoder and the fetch form the word of two bytes, whose value is big-endian, and the encoder takes
its word apart into those two bytes. -/
theorem instructionIsOneBigEndianWord : Obligations.InstructionIsOneBigEndianWord := by
  refine ⟨fun hi lo rest => ?_, fun i => ?_, fun s hpc => ?_⟩
  · exact ⟨wordOfBytes hi lo, wordOfBytes_toNat hi lo, rfl⟩
  · refine ⟨highByte (encode i), lowByte (encode i), rfl, ?_⟩
    rw [← wordOfBytes_toNat, wordOfBytes_bytes]
  · exact ⟨readWord s.mem s.pc.toNat, fetch_ok hpc, wordOfBytes_toNat ..⟩

/-! ## What a step makes of the outcome of its instruction (R86) -/

/-- An instruction that raised is undone but for the record, which gets the instruction's address (R17, D14). -/
theorem settle_of_fault {s t : State} {r : FaultRecord} (h : t.fault = some r) :
    settle s (.next t) = .next (s.setFault (some { r with pc := some s.pc })) := by
  simp only [settle, h]

/-- An instruction that changes nothing in any state leaves the step the advance of PC alone. -/
theorem step_of_exec_unchanged {s : State} {w : Word} (h : s.enabled) (hf : fetch s = .ok w)
    (he : ∀ t, exec (decode w) t = .next t) : step s = .next (advance s) := by
  have hadv : (advance s).fault = none := h.1
  rw [step_of_fetch_ok h hf, he, settle_of_no_fault hadv]

/-! ## The no-op space -/

theorem exec_sys (nnn : Addr) (s : State) : exec (.sys nnn) s = .next s := rfl

theorem exec_nop (w : Word) (s : State) : exec (.nop w) s = .next s := rfl

/-- Settles O7: the words of family 0 decode to SYS and the others to NOP, and neither changes anything. -/
theorem unrecognisedWordsAreNoOps : Obligations.UnrecognisedWordsAreNoOps := by
  refine ⟨fun nnn w s => ⟨exec_sys nnn s, exec_nop w s⟩, fun w s hw => ?_⟩
  have hdecode : decode w = .sys (nnnField w) ∨ decode w = .nop w := by
    rcases hw with ⟨hop, hcls, hret⟩ | ⟨hop, hn⟩ | ⟨hop, hkk⟩ | ⟨hop, hkk⟩
    · exact .inl ((decode_of_family0 hop).trans (decodeFamily0_sys hcls hret))
    · exact .inr ((decode_of_family8 hop).trans (decodeFamily8_nop hn))
    · exact .inr ((decode_of_familyE hop).trans (decodeFamilyE_nop hkk))
    · exact .inr ((decode_of_familyF hop).trans (decodeFamilyF_nop hkk))
  have hexec : ∀ t, exec (decode w) t = .next t := by
    intro t
    rcases hdecode with h | h
    · rw [h, exec_sys]
    · rw [h, exec_nop]
  exact ⟨hexec s, fun hs hf => step_of_exec_unchanged hs hf hexec⟩

/-! ## The step and the execute port, enabled -/

/-- When the two bytes at PC decode to i, the enabled step settles exec of i at PC + 2 (R86). -/
theorem step_of_decodeBytes {s : State} {i : Instr} (h : s.enabled) (hpc : s.pc.toNat + 2 ≤ 4096)
    (hi : decodeBytes [Memory.read s.mem s.pc.toNat, Memory.read s.mem (s.pc.toNat + 1)] = .ok (i, [])) :
    step s = settle s (exec i (advance s)) := by
  rw [decodeBytes_pair] at hi
  cases hi
  exact step_of_fetch_ok h (fetch_ok hpc)

/-- An enabled `execute` is exec of the decoded word (R87). -/
theorem execute_of_enabled {s : State} (w : Word) (h : s.enabled) : execute w s = exec (decode w) s := by
  obtain ⟨hfault, hwait⟩ := h
  simp only [execute, executeWith, hfault, hwait]

theorem perform_step_of_next {s t : State} (h : step s = .next t) : perform .step s = .next (t, .nothing) := by
  rw [perform, h, withoutAnswer]

theorem perform_execute_of_next {w : Word} {s t : State} (h : execute w s = .next t) :
    perform (.execute w) s = .next (t, .nothing) := by
  rw [perform, h, withoutAnswer]

/-- Settles O40: the step settles exec of the decoded instruction, and settling has the three outcomes. -/
theorem stepRunsTheDecodedInstruction : Obligations.StepRunsTheDecodedInstruction := by
  refine ⟨fun s i hs hpc hi => ?_, fun w s hs => execute_of_enabled w hs,
    fun w s t => ⟨perform_step_of_next, perform_execute_of_next⟩⟩
  rw [step_of_decodeBytes hs hpc hi, advance]
  refine ⟨fun t he ht => ?_, fun t r he ht => ?_, fun r he => ?_⟩
  · rw [he, settle_of_no_fault ht]
  · rw [he, settle_of_fault ht, State.setFault]
  · rw [he, settle]

/-! ## The step and the execute port, not enabled (log entry 2) -/

theorem step_of_fault {s : State} {r : FaultRecord} (h : s.fault = some r) : step s = .fault r.kind := by
  simp only [step, stepWith, h]

theorem execute_of_fault {s : State} {r : FaultRecord} (w : Word) (h : s.fault = some r) :
    execute w s = .refused .haltedByFault := by
  simp only [execute, executeWith, h]

theorem step_of_wait {s : State} {x : Nibble} (hf : s.fault = none) (hw : s.wait = some x) :
    step s = .refused .waitingForKey := by
  simp only [step, stepWith, hf, hw]

theorem execute_of_wait {s : State} {x : Nibble} (w : Word) (hf : s.fault = none) (hw : s.wait = some x) :
    execute w s = .refused .waitingForKey := by
  simp only [execute, executeWith, hf, hw]

/-- Settles O42: a recorded fault stops both before the key wait is looked at, and then the key wait does. -/
theorem noStepAfterFaultOrInKeyWait : Obligations.NoStepAfterFaultOrInKeyWait := fun _ w =>
  ⟨fun _ hr => ⟨step_of_fault hr, execute_of_fault w hr⟩,
    fun _ hf hw => ⟨step_of_wait hf hw, execute_of_wait w hf hw⟩⟩

end Sys2Proof.Machine

/-! PROOFS. Control flow (40_control_flow.md): what a skip, a jump, CALL and RET make of PC and the stack, and that nothing
else changes PC. -/

namespace Sys2Proof.Machine

/-! ## A write of PC, and the skips -/

theorem onlyPc_setPc (s : State) (a : Word) : onlyPc s (s.setPc a) := ⟨rfl, fun _ => rfl⟩

theorem onlyPc_skipIf (c : Bool) (s : State) : onlyPc s (skipIf c s) := by
  rw [skipIf_eq]
  exact onlyPc_setPc s _

/-- A skip taken adds 2 to PC, modulo 2^16 (R18). -/
theorem skipIf_pc_toNat (c : Bool) (s : State) :
    (skipIf c s).pc.toNat = (s.pc.toNat + if c then 2 else 0) % 65536 := by
  have hlt : s.pc.toNat < 65536 := s.pc.isLt
  rw [skipIf_eq, State.setPc_pc]
  cases c with
  | false => exact (Nat.mod_eq_of_lt hlt).symm
  | true => exact BitVec.toNat_add ..

/-- The skip on equality, SE (R104, R106). -/
theorem skipIf_beq_pc_toNat (a b : Byte) (s : State) :
    (skipIf (a == b) s).pc.toNat = (s.pc.toNat + if a = b then 2 else 0) % 65536 := by
  simp only [skipIf_pc_toNat, beq_iff_eq]

/-- The skip on inequality, SNE (R105, R107). -/
theorem skipIf_bne_pc_toNat (a b : Byte) (s : State) :
    (skipIf (a != b) s).pc.toNat = (s.pc.toNat + if a = b then 0 else 2) % 65536 := by
  simp only [skipIf_pc_toNat, bne_iff_ne, ne_eq, ite_not]

/-! ## CALL and RET -/

theorem push_full {s : State} (v : Word) (h : s.sp.toNat = 16) : push s v = .raised .stackOverflow .nothing := if_pos h

theorem pop_empty {s : State} (h : s.sp.toNat = 0) : pop s = .raised .stackUnderflow .nothing := if_pos h

/-- Pop with an entry: the top slot, and SP one less. -/
theorem pop_ok {s : State} (h1 : 1 ≤ s.sp.toNat) (h16 : s.sp.toNat ≤ 16) :
    pop s = .ok (s.stackSlot s.sp.toNat, s.setStack (s.sp - 1#8) s.stack) := by
  rw [pop, if_neg (by omega), if_neg (Nat.not_lt.mpr h16)]

/-- CALL with room on the stack (R103). -/
theorem exec_call_of_room (nnn : Addr) {s : State} (h : s.sp.toNat < 16) :
    exec (.call nnn) s
      = .next ((s.setStack (s.sp + 1#8) (s.stack.setIfInBounds s.sp.toNat s.pc)).setPc (addrWord nnn)) := by
  rw [exec, execCall, push_ok s.pc h, attempt_ok]

/-- CALL with a full stack (R27, R103). -/
theorem exec_call_of_full (nnn : Addr) {s : State} (h : s.sp.toNat = 16) :
    exec (.call nnn) s = .next (raise s .stackOverflow (some s.pc) (some (encode (.call nnn))) .nothing) := by
  rw [exec, execCall, push_full s.pc h, attempt_raised]

/-- RET with an address on the stack (R101). -/
theorem exec_ret_of_entry {s : State} (h1 : 1 ≤ s.sp.toNat) (h16 : s.sp.toNat ≤ 16) :
    exec .ret s = .next ((s.setStack (s.sp - 1#8) s.stack).setPc (s.stackSlot s.sp.toNat)) := by
  rw [exec, execRet, pop_ok h1 h16, attempt_ok]

/-- RET with an empty stack (R28, R101). -/
theorem exec_ret_of_empty {s : State} (h : s.sp.toNat = 0) :
    exec .ret s = .next (raise s .stackUnderflow (some s.pc) (some (encode .ret)) .nothing) := by
  rw [exec, execRet, pop_empty h, attempt_raised]

theorem sp_add_one_toNat {s : State} (h : s.sp.toNat < 16) : (s.sp + 1#8).toNat = s.sp.toNat + 1 := by
  bv_omega

theorem sp_sub_one_toNat {s : State} (h : 1 ≤ s.sp.toNat) : (s.sp - 1#8).toNat = s.sp.toNat - 1 := by
  bv_omega

/-- The slots depend on the stack vector alone. -/
theorem stackSlot_congr {s t : State} (h : t.stack = s.stack) (j : Nat) : t.stackSlot j = s.stackSlot j := by
  rw [State.stackSlot, State.stackSlot, h]

/-! ## The statements -/

/-- Settles O11: the top slot of the CALL's stack is the PC it pushed, and RET pops that slot and leaves the others. -/
theorem returnUndoesCall : Obligations.ReturnUndoesCall := by
  intro nnn s t u hroom hcall husp hustack
  rw [exec_call_of_room nnn hroom] at hcall
  cases hcall
  have hsp : u.sp.toNat = s.sp.toNat + 1 := by rw [husp]; exact sp_add_one_toNat hroom
  have hslot : ∀ j, 1 ≤ j → j ≤ 16 → u.stackSlot j = if j = s.sp.toNat + 1 then s.pc else s.stackSlot j :=
    fun j h1 h16 => (stackSlot_congr hustack j).trans (stackSlot_push s.pc hroom ⟨h1, h16⟩)
  refine ⟨_, exec_ret_of_entry (by omega) (by omega), ?_, ?_, fun j h1 hj => ?_⟩
  · rw [State.setPc_pc, hsp, hslot _ (by omega) (by omega), if_pos rfl]
  · rw [State.setPc_sp, State.setStack_sp, husp]
    exact BitVec.add_sub_cancel ..
  · exact (hslot j h1 (by omega)).trans (if_neg (by omega))

/-- Settles O46: of the effects an instruction can have, only the skips, the jumps, CALL and RET write PC. -/
theorem onlyControlTransfersChangePc : Obligations.OnlyControlTransfersChangePc := by
  intro i s t h hi
  cases exec_effect h with
  | skipped _ hpc | jumped _ hpc _ => exact absurd (hpc.symm.trans hi) (by decide)
  | called _ hcall _ => subst hcall; cases hi
  | returned hret _ => subst hret; cases hi
  | _ => rfl

/-- Settles O8: a write of PC is all JP does. -/
theorem jumpWritesPcOnly : Obligations.JumpWritesPcOnly := fun nnn s =>
  ⟨s.setPc (addrWord nnn), rfl, addrWord_toNat nnn, onlyPc_setPc s _⟩

/-- Settles O9: the two ends of Push, with room and with a full stack. -/
theorem callPushesPcAndJumpsOrOverflows : Obligations.CallPushesPcAndJumpsOrOverflows := by
  refine fun nnn s => ⟨fun hroom => ?_, fun hfull => exec_call_of_full nnn hfull⟩
  exact ⟨_, exec_call_of_room nnn hroom, addrWord_toNat nnn, sp_add_one_toNat hroom,
    fun j h1 h16 => stackSlot_push s.pc hroom ⟨h1, h16⟩, rfl, fun _ => rfl⟩

/-- Settles O10: the two ends of Pop, with an entry and with an empty stack. -/
theorem returnPopsPcOrUnderflows : Obligations.ReturnPopsPcOrUnderflows := by
  refine fun s => ⟨fun h1 h16 => ?_, fun hempty => exec_ret_of_empty hempty⟩
  exact ⟨_, exec_ret_of_entry h1 h16, rfl, sp_sub_one_toNat h1, rfl, fun _ => rfl⟩

/-- Settles O12: one skip on the two opposite conditions. -/
theorem skipsComparingImmediate : Obligations.SkipsComparingImmediate := fun x kk s =>
  ⟨skipIf (s.getV x == kk) s, skipIf (s.getV x != kk) s, rfl, rfl, skipIf_beq_pc_toNat .., skipIf_bne_pc_toNat ..,
    onlyPc_skipIf .., onlyPc_skipIf ..⟩

/-- Settles O13: with x = y the two operands are one register, so SE's condition is true and SNE's false. -/
theorem skipsComparingRegisters : Obligations.SkipsComparingRegisters := by
  intro x y n s
  refine ⟨skipIf (s.getV x == s.getV y) s, skipIf (s.getV x != s.getV y) s, rfl, rfl, skipIf_beq_pc_toNat ..,
    skipIf_bne_pc_toNat .., onlyPc_skipIf .., onlyPc_skipIf .., ?_⟩
  rintro rfl
  rw [beq_self_eq_true, bne_self_eq_false]
  exact ⟨rfl, rfl⟩

/-- Settles O14: the offset target never wraps. -/
theorem jumpWithOffset : Obligations.JumpWithOffset := by
  intro nnn s
  have hpc := offsetTarget_toNat nnn (s.getV 0)
  refine ⟨s.setPc (offsetTarget nnn (s.getV 0)), rfl, hpc, ?_, onlyPc_setPc s _⟩
  rw [State.setPc_pc, hpc]
  omega

end Sys2Proof.Machine

/-! PROOFS. Loads, arithmetic, logic, shifts and RND (41_load_alu.md): every one writes V[x] last, and the flag writers
write VF before it, so the registers after them are those of `State.setV` or of `flagThenResult`. -/

namespace Sys2Proof.Machine

/-! ## A write of one register, and of VF and then another -/

theorem onlyRegs_setV (s : State) (x : Nibble) (b : Byte) : onlyRegs s (s.setV x b) := ⟨rfl, fun _ => rfl⟩

section
variable (s : State) {x z : Nibble} (flag : Byte) (result : State → Byte) (g : Byte → Byte)

theorem onlyRegs_flagThenResult : onlyRegs s (flagThenResult s x flag result) :=
  ⟨flagThenResult_frame s x flag result, fun _ => rfl⟩

theorem flagThenResult_getV_same : (flagThenResult s x flag result).getV x = result (s.setV vf flag) :=
  (flagThenResult_getV ..).trans (if_pos rfl)

/-- The flag stays in VF unless VF is the destination (R123). -/
theorem flagThenResult_getV_vf_toNat {f : Nat} (hf : flag.toNat = f) (hx : x ≠ vf) :
    ((flagThenResult s x flag result).getV vf).toNat = f := by
  rw [flagThenResult_getV, if_neg hx, if_pos rfl, hf]

theorem flagThenResult_getV_other (hx : z ≠ x) (hf : z ≠ vf) : (flagThenResult s x flag result).getV z = s.getV z := by
  rw [flagThenResult_getV, if_neg hx.symm, if_neg hf.symm]

/-- A function of V[x] reads the old V[x] when x is not VF. -/
theorem flagThenResult_apply_getV (hx : x ≠ vf) :
    (flagThenResult s x flag fun t => g (t.getV x)).getV x = g (s.getV x) := by
  rw [flagThenResult_getV_same, State.getV_setV_other s flag hx.symm]

/-- A function of VF, written to VF, reads the flag. -/
theorem flagThenResult_apply_getV_vf : (flagThenResult s vf flag fun t => g (t.getV vf)).getV vf = g flag := by
  rw [flagThenResult_getV_same, State.getV_setV_same]

end

/-! ## Differences and shifts as numbers -/

theorem byte_sub_toNat (a b : Byte) : (a - b).toNat = (a.toNat + 256 - b.toNat) % 256 := by
  rw [BitVec.toNat_sub, Nat.add_comm a.toNat, Nat.sub_add_comm (Nat.le_of_lt b.isLt)]

/-- An operand read after the write of VF: the flag where the operand is VF. -/
theorem getV_setV_vf_toNat (s : State) (z : Nibble) {flag : Byte} {f : Nat} (hf : flag.toNat = f) :
    ((s.setV vf flag).getV z).toNat = if z = vf then f else (s.getV z).toNat := by
  by_cases hz : z = vf
  · rw [if_pos hz, hz, State.getV_setV_same, hf]
  · rw [if_neg hz, State.getV_setV_other s flag (Ne.symm hz)]

/-- A difference written after VF is that of the operands as they stand after that write (R123). -/
theorem flagThenDifference_toNat (s : State) (x p q : Nibble) {flag : Byte} {f : Nat} (hf : flag.toNat = f) :
    ((flagThenResult s x flag fun t => t.getV p - t.getV q).getV x).toNat
      = ((if p = vf then f else (s.getV p).toNat) + 256 - if q = vf then f else (s.getV q).toNat) % 256 := by
  rw [flagThenResult_getV_same, byte_sub_toNat, getV_setV_vf_toNat s p hf, getV_setV_vf_toNat s q hf]

theorem byte_ushiftRight_one_toNat (a : Byte) : (a >>> 1).toNat = a.toNat / 2 := by
  rw [BitVec.toNat_ushiftRight, Nat.shiftRight_one]

theorem byte_shiftLeft_one_toNat (a : Byte) : (a <<< 1).toNat = a.toNat * 2 % 256 := by
  rw [BitVec.toNat_shiftLeft, Nat.shiftLeft_eq, Nat.pow_one]

/-- SHR's flag is a single low bit, which a further shift drops. -/
theorem lowBitFlag_ushiftRight_one (a : Byte) : lowBitFlag a >>> 1 = 0#8 := by
  refine BitVec.eq_of_toNat_eq ?_
  rw [byte_ushiftRight_one_toNat, lowBitFlag_toNat]
  exact Nat.div_eq_of_lt (Nat.mod_lt _ (by decide))

/-- SHL's flag is a single high bit, which a further shift drops. -/
theorem highBitFlag_shiftLeft_one (a : Byte) : highBitFlag a <<< 1 = 0#8 := by
  refine BitVec.eq_of_toNat_eq ?_
  rw [byte_shiftLeft_one_toNat, highBitFlag_toNat]
  split <;> rfl

/-- A masked draw is no larger than the draw (R133). -/
theorem drawnByte_and_toNat_le (n : Nat) (kk : Byte) : (drawnByte n &&& kk).toNat ≤ 254 :=
  calc (drawnByte n &&& kk).toNat
    _ = (drawnByte n).toNat &&& kk.toNat := BitVec.toNat_and ..
    _ ≤ (drawnByte n).toNat := Nat.and_le_left
    _ ≤ 254 := drawnByte_le n

/-! ## The statements -/

/-- Settles O18: the flag's number is f, and the difference is of V[x] and V[y] as they stand after the flag's write. -/
theorem subtractWithStrictFlag : Obligations.SubtractWithStrictFlag := by
  intro x y s
  have hf := greaterFlag_toNat (s.getV x) (s.getV y)
  exact ⟨flagThenResult s x (greaterFlag (s.getV x) (s.getV y)) fun t => t.getV x - t.getV y, rfl,
    ⟨flagThenDifference_toNat s x x y hf, flagThenResult_getV_vf_toNat s _ _ hf⟩,
    fun _ => flagThenResult_getV_other s _ _, onlyRegs_flagThenResult s _ _⟩

/-- Settles O20: SUB's argument with the operands exchanged in the flag and in the difference. -/
theorem reverseSubtract : Obligations.ReverseSubtract := by
  intro x y s
  have hf := greaterFlag_toNat (s.getV y) (s.getV x)
  exact ⟨flagThenResult s x (greaterFlag (s.getV y) (s.getV x)) fun t => t.getV y - t.getV x, rfl,
    ⟨flagThenDifference_toNat s x y x hf, flagThenResult_getV_vf_toNat s _ _ hf⟩,
    fun _ => flagThenResult_getV_other s _ _, onlyRegs_flagThenResult s _ _⟩

/-- Settles O15: each of the three is one write of V[x]. -/
theorem immediateLoadAddAndCopy : Obligations.ImmediateLoadAddAndCopy := by
  intro x y kk s
  refine ⟨s.setV x kk, s.setV x (s.getV x + kk), s.setV x (s.getV y), rfl, rfl, rfl, State.getV_setV_same .., ?_,
    State.getV_setV_same .., fun z hz => ?_, onlyRegs_setV .., onlyRegs_setV .., onlyRegs_setV ..⟩
  · rw [State.getV_setV_same]
    exact BitVec.toNat_add ..
  · exact ⟨State.getV_setV_other s _ hz.symm, State.getV_setV_other s _ hz.symm, State.getV_setV_other s _ hz.symm⟩

/-- Settles O16: each of the three is one write of V[x], and the operations on bytes act bit by bit. -/
theorem bitwiseOperations : Obligations.BitwiseOperations := by
  intro x y s
  refine ⟨s.setV x (s.getV x ||| s.getV y), s.setV x (s.getV x &&& s.getV y), s.setV x (s.getV x ^^^ s.getV y),
    rfl, rfl, rfl, fun k _ => ?_, fun z hz => ?_, onlyRegs_setV .., onlyRegs_setV .., onlyRegs_setV ..⟩
  · simp only [State.getV_setV_same]
    exact ⟨BitVec.getLsbD_or, BitVec.getLsbD_and, BitVec.getLsbD_xor⟩
  · exact ⟨State.getV_setV_other s _ hz.symm, State.getV_setV_other s _ hz.symm, State.getV_setV_other s _ hz.symm⟩

/-- Settles O17: the sum is of the old operands, so it does not depend on the flag written before it. -/
theorem addWithCarry : Obligations.AddWithCarry := by
  intro x y s
  have hf := carryFlag_toNat (s.getV x) (s.getV y)
  refine ⟨flagThenResult s x (carryFlag (s.getV x) (s.getV y)) fun _ => s.getV x + s.getV y, rfl, ?_,
    flagThenResult_getV_vf_toNat s _ _ hf, fun _ => flagThenResult_getV_other s _ _,
    onlyRegs_flagThenResult s _ _⟩
  rw [flagThenResult_getV_same]
  exact BitVec.toNat_add ..

/-- Settles O19: with x = 15 the value shifted is the flag, a single low bit. -/
theorem shiftRight : Obligations.ShiftRight := by
  intro x _ s
  refine ⟨flagThenResult s x (lowBitFlag (s.getV x)) fun t => t.getV x >>> 1, rfl, fun hx => ⟨?_, ?_⟩, ?_,
    fun _ => flagThenResult_getV_other s _ _, onlyRegs_flagThenResult s _ _⟩
  · rw [flagThenResult_apply_getV s _ (· >>> 1) hx, byte_ushiftRight_one_toNat]
  · exact flagThenResult_getV_vf_toNat s _ _ (lowBitFlag_toNat _) hx
  · rintro rfl
    exact (flagThenResult_apply_getV_vf s _ (· >>> 1)).trans (lowBitFlag_ushiftRight_one _)

/-- Settles O21: with x = 15 the value shifted is the flag, a single high bit. -/
theorem shiftLeftFlagNotNormalised : Obligations.ShiftLeftFlagNotNormalised := by
  intro x _ s
  refine ⟨flagThenResult s x (highBitFlag (s.getV x)) fun t => t.getV x <<< 1, rfl, fun hx => ⟨?_, ?_⟩, ?_,
    fun _ => flagThenResult_getV_other s _ _, onlyRegs_flagThenResult s _ _⟩
  · rw [flagThenResult_apply_getV s _ (· <<< 1) hx, byte_shiftLeft_one_toNat]
  · exact flagThenResult_getV_vf_toNat s _ _ (highBitFlag_toNat _) hx
  · rintro rfl
    exact (flagThenResult_apply_getV_vf s _ (· <<< 1)).trans (highBitFlag_shiftLeft_one _)

/-- Settles O22: the draw is at most 254, and a mask does not raise it. -/
theorem randomByteIsMaskedDraw : Obligations.RandomByteIsMaskedDraw := by
  intro x kk s
  have hx : ((s.setV x (drawnByte s.draws &&& kk)).setDraws (s.draws + 1)).getV x = drawnByte s.draws &&& kk :=
    State.getV_setV_same ..
  refine ⟨(s.setV x (drawnByte s.draws &&& kk)).setDraws (s.draws + 1), rfl,
    ⟨(drawnByte s.draws).toNat, drawnByte_le _, ?_⟩, fun hff => ?_, fun z hz => State.getV_setV_other s _ hz.symm, rfl,
    fun _ => rfl⟩
  · rw [hx, BitVec.ofNat_toNat, BitVec.setWidth_eq]
  · exact absurd (hx.symm.trans hff ▸ drawnByte_and_toNat_le s.draws kk) (by decide)

end Sys2Proof.Machine

/-! PROOFS. Display (42_display.md): draw_sprite as the set of pixels it toggles, built bit by bit and row by row, and CLS,
DRW and LD F from it. No two bits of one sprite share a pixel (R151), so the parts of a drawing toggle disjoint sets. -/

namespace Sys2Proof.Machine

/-! ## A drawing as the set of pixels it toggles -/

/-- Two screens whose pixels agree are equal. -/
theorem Screen.ext_pixel {fb fb' : Screen} (h : ∀ x y, fb.pixel x y = fb'.pixel x y) : fb = fb' := by
  refine Vector.ext fun y hy => Vector.ext fun x hx => ?_
  simpa only [Screen.pixel, Vector.get_eq_getElem] using h ⟨x, hx⟩ ⟨y, hy⟩

/-- From d, drawing toggles exactly the covered pixels to reach e, and it records a collision exactly when one of them was
on. -/
structure Toggles (d : Drawing) (covers : Fin 64 → Fin 32 → Bool) (e : Drawing) : Prop where
  pixel : ∀ x y, e.fb.pixel x y = (d.fb.pixel x y ^^ covers x y)
  hit : e.hit = true ↔ d.hit = true ∨ ∃ x y, covers x y = true ∧ d.fb.pixel x y = true

theorem Toggles.refl (d : Drawing) : Toggles d (fun _ _ => false) d := ⟨by simp, by simp⟩

/-- Drawing twice toggles the pixels of both parts, as long as no pixel is in both: the second part then meets its pixels
as they were before the first. -/
theorem Toggles.trans {d e f : Drawing} {c c' : Fin 64 → Fin 32 → Bool} (h : Toggles d c e) (h' : Toggles e c' f)
    (hdisj : ∀ x y, c' x y = true → c x y = false) : Toggles d (fun x y => c x y || c' x y) f := by
  have hmeets : ∀ x y, (c' x y = true ∧ e.fb.pixel x y = true) ↔ (c' x y = true ∧ d.fb.pixel x y = true) :=
    fun x y => and_congr_right fun hc => by rw [h.pixel, hdisj x y hc, Bool.xor_false]
  refine ⟨fun x y => ?_, ?_⟩
  · rw [h'.pixel, h.pixel]
    cases hc : c' x y with
    | false => simp
    | true => simp [hdisj x y hc]
  · simp only [h'.hit, h.hit, hmeets, Bool.or_eq_true, or_and_right, exists_or, or_assoc]

theorem Toggles.congr {d e : Drawing} {c c' : Fin 64 → Fin 32 → Bool} (h : Toggles d c e)
    (hc : ∀ x y, c' x y = c x y) : Toggles d c' e := by
  have hcc : c' = c := funext fun x => funext fun y => hc x y
  exact hcc ▸ h

/-- One bit of a sprite toggles its pixel when it is 1 (R151). -/
theorem drawBit_toggles (d : Drawing) (x y : Nat) (on : Bool) :
    Toggles d (fun px py => on && decide (px = wrapX x) && decide (py = wrapY y)) (drawBit d x y on) := by
  refine ⟨drawBit_pixel d x y on, ?_⟩
  rw [drawBit_hit]
  cases on <;> simp [and_assoc]

/-! ## The place of a pixel in a sprite -/

/-- How many columns right of x0 a pixel is, the wrap included. -/
def columnIn (x0 : Nat) (x : Fin 64) : Nat := (x.val + (64 - x0 % 64)) % 64

/-- How many rows below y0 a pixel is, the wrap included. -/
def rowIn (y0 : Nat) (y : Fin 32) : Nat := (y.val + (32 - y0 % 32)) % 32

/-- Coverage in terms of the place in the sprite. -/
theorem spriteCovers_eq (x0 y0 : Nat) (rows : List Byte) (x : Fin 64) (y : Fin 32) :
    spriteCovers x0 y0 rows x y
      = (decide (columnIn x0 x < 8) && decide (rowIn y0 y < rows.length)
          && (rows.getD (rowIn y0 y) 0#8).getLsbD (7 - columnIn x0 x)) := rfl

/-- Column c of a sprite lands on the pixel c columns right of x0. -/
theorem eq_wrapX_iff {x0 c : Nat} (hc : c < 64) (x : Fin 64) : x = wrapX (x0 + c) ↔ columnIn x0 x = c := by
  simp only [Fin.ext_iff, wrapX, columnIn]
  omega

/-- The first row of a sprite lands on the pixels 0 rows below y0. -/
theorem eq_wrapY_iff (y0 : Nat) (y : Fin 32) : y = wrapY y0 ↔ rowIn y0 y = 0 := by
  simp only [Fin.ext_iff, wrapY, rowIn]
  omega

/-- Seen from one row further down, a pixel is one row less below, but for those of the first row, which are 31 below. -/
theorem rowIn_cases (y0 : Nat) (y : Fin 32) :
    (rowIn y0 y = 0 ∧ rowIn (y0 + 1) y = 31) ∨ rowIn y0 y = rowIn (y0 + 1) y + 1 := by
  simp only [rowIn]
  omega

/-- A one-row sprite covers pixels of the row it is drawn in. -/
theorem spriteCovers_row (x0 y0 : Nat) (row : Byte) (x : Fin 64) (y : Fin 32) :
    spriteCovers x0 y0 [row] x y
      = (decide (columnIn x0 x < 8) && row.getLsbD (7 - columnIn x0 x) && decide (y = wrapY y0)) := by
  simp only [spriteCovers_eq, eq_wrapY_iff, List.length_singleton, Nat.lt_one_iff]
  by_cases hy : rowIn y0 y = 0 <;> simp [hy]

/-- A sprite covers what its first row covers and what the rest, drawn one row further down, covers. -/
theorem spriteCovers_cons (x0 y0 : Nat) (row : Byte) {rows : List Byte} (h : rows.length ≤ 31) (x : Fin 64)
    (y : Fin 32) :
    spriteCovers x0 y0 (row :: rows) x y = (spriteCovers x0 y0 [row] x y || spriteCovers x0 (y0 + 1) rows x y) := by
  simp only [spriteCovers_eq]
  rcases rowIn_cases y0 y with ⟨h0, h31⟩ | hsucc
  · have hout : ¬ 31 < rows.length := by omega
    simp [h0, h31, hout]
  · simp [hsucc]

/-- The first row of a sprite of at most 32 rows shares no pixel with the rest (R151). -/
theorem spriteCovers_row_disjoint {x0 y0 : Nat} {row : Byte} {rows : List Byte} (h : rows.length ≤ 31) {x : Fin 64}
    {y : Fin 32} (hc : spriteCovers x0 (y0 + 1) rows x y = true) : spriteCovers x0 y0 [row] x y = false := by
  simp only [spriteCovers_eq, Bool.and_eq_true, decide_eq_true_eq] at hc
  obtain ⟨⟨-, hlt⟩, -⟩ := hc
  have hrow : rowIn y0 y ≠ 0 := by
    have := rowIn_cases y0 y
    omega
  simp [spriteCovers_eq, hrow]

/-! ## draw_sprite -/

/-- The first n bits of a row toggle the pixels in the first n columns under a 1 bit, in that screen row. -/
theorem foldl_drawBit_toggles (d : Drawing) (x0 y : Nat) (row : Byte) {n : Nat} (hn : n ≤ 8) :
    Toggles d (fun px py => decide (columnIn x0 px < n) && row.getLsbD (7 - columnIn x0 px) && decide (py = wrapY y))
      ((List.range n).foldl (fun d c => drawBit d (x0 + c) y (row.getLsbD (7 - c))) d) := by
  induction n with
  | zero => exact (Toggles.refl d).congr fun px py => by simp
  | succ n ih =>
    rw [List.range_succ, List.foldl_append, List.foldl_cons, List.foldl_nil]
    have hbit := drawBit_toggles
      ((List.range n).foldl (fun d c => drawBit d (x0 + c) y (row.getLsbD (7 - c))) d) (x0 + n) y (row.getLsbD (7 - n))
    simp only [eq_wrapX_iff (Nat.lt_of_lt_of_le hn (by decide))] at hbit
    refine ((ih (by omega)).trans hbit fun px py hc => ?_).congr fun px py => ?_
    · simp only [Bool.and_eq_true, decide_eq_true_eq] at hc
      obtain ⟨⟨-, hcol⟩, -⟩ := hc
      simp [hcol]
    · rcases Nat.lt_trichotomy (columnIn x0 px) n with hlt | heq | hgt
      · simp [hlt, hlt.ne, Nat.lt_succ_of_lt hlt]
      · simp [heq]
      · simp [hgt.not_gt, hgt.ne', (Nat.succ_le_of_lt hgt).not_gt]

/-- A row of a sprite toggles what the one-row sprite covers. -/
theorem drawRow_toggles (d : Drawing) (x0 y : Nat) (row : Byte) :
    Toggles d (spriteCovers x0 y [row]) (drawRow d x0 y row) :=
  (foldl_drawBit_toggles d x0 y row (Nat.le_refl 8)).congr (spriteCovers_row x0 y row)

/-- The rows of a sprite that does not wrap onto itself toggle what the sprite covers. -/
theorem drawRows_toggles (d : Drawing) (x0 y : Nat) {rows : List Byte} (h : rows.length ≤ 32) :
    Toggles d (spriteCovers x0 y rows) (drawRows d x0 y rows) := by
  induction rows generalizing d y with
  | nil => exact (Toggles.refl d).congr fun px py => by simp [spriteCovers_eq]
  | cons row rows ih =>
    have hlen : rows.length ≤ 31 := Nat.le_of_succ_le_succ h
    have hrest := ih (drawRow d x0 y row) (y + 1) (by omega)
    exact ((drawRow_toggles d x0 y row).trans hrest fun _ _ => spriteCovers_row_disjoint hlen).congr
      (spriteCovers_cons x0 y row hlen)

section
variable (fb : Screen) (x0 y0 : Nat) {rows : List Byte} (h : rows.length ≤ 15)
include h

/-- Each pixel is toggled exactly when the sprite covers it (R151). -/
theorem drawSprite_pixel (x : Fin 64) (y : Fin 32) :
    (drawSprite fb x0 y0 rows).fb.pixel x y = (fb.pixel x y ^^ spriteCovers x0 y0 rows x y) :=
  (drawRows_toggles ⟨fb, false⟩ x0 y0 (h.trans (by decide))).pixel x y

/-- A collision is a covered pixel that was on (R151). -/
theorem drawSprite_hit :
    (drawSprite fb x0 y0 rows).hit = true ↔ ∃ x y, spriteCovers x0 y0 rows x y = true ∧ fb.pixel x y = true :=
  (drawRows_toggles ⟨fb, false⟩ x0 y0 (h.trans (by decide))).hit.trans (or_iff_right Bool.false_ne_true)

end

/-- Settles O24: the toggles of the rows of a sprite. -/
theorem drawSpriteTogglesWhatItCovers : Obligations.DrawSpriteTogglesWhatItCovers := fun fb x0 y0 _ h =>
  ⟨drawSprite_pixel fb x0 y0 h, drawSprite_hit fb x0 y0 h⟩

/-- Settles O25: a pixel toggled twice is as it was, and a covered pixel is on after the first draw exactly when it was
off before it. -/
theorem drawingTwiceRestoresTheScreen : Obligations.DrawingTwiceRestoresTheScreen := by
  intro fb x0 y0 rows h
  refine ⟨Screen.ext_pixel fun x y => ?_, ?_⟩
  · rw [drawSprite_pixel _ x0 y0 h, drawSprite_pixel fb x0 y0 h, Bool.xor_assoc, Bool.xor_self, Bool.xor_false]
  · have hon : ∀ x y, (spriteCovers x0 y0 rows x y = true ∧ (drawSprite fb x0 y0 rows).fb.pixel x y = true)
        ↔ (spriteCovers x0 y0 rows x y = true ∧ fb.pixel x y = false) :=
      fun x y => and_congr_right fun hc => by
        rw [drawSprite_pixel fb x0 y0 h, hc, Bool.xor_true, Bool.not_eq_true']
    simp only [drawSprite_hit _ x0 y0 h, hon]

/-! ## The display instructions -/

/-- DRW whose rows are all in memory draws them (R153). -/
theorem exec_drwVxVyN_draws (x y : Nibble) {n : Nibble} {s : State} (h : n.toNat = 0 ∨ s.i.toNat + n.toNat ≤ 4096) :
    exec (.drwVxVyN x y n) s = .next (drawAt s x y (Memory.readBytes s.mem s.i.toNat n.toNat)) := by
  rw [exec, execDrwVxVyN, readRange_ok s.mem h, attempt_ok]

/-- VF after DRW is the collision flag (R153, D7). -/
theorem drawAt_getV_vf (s : State) (x y : Nibble) (rows : List Byte) :
    (drawAt s x y rows).getV vf
      = collisionFlag (drawSprite s.fb (s.getV x).toNat (s.getV y).toNat rows).hit :=
  State.getV_setV_same ..

theorem drawAt_getV_other (s : State) (x y : Nibble) {z : Nibble} (rows : List Byte) (hz : z ≠ vf) :
    (drawAt s x y rows).getV z = s.getV z :=
  State.getV_setV_other _ _ hz.symm

theorem drawAt_frame (s : State) (x y : Nibble) (rows : List Byte) :
    { drawAt s x y rows with v := s.v, fb := s.fb } = s := rfl

/-- Settles O26: a height is at most 15, so the drawing toggles what the sprite covers, and VF is its collision flag. -/
theorem drawWritesScreenAndCollision : Obligations.DrawWritesScreenAndCollision := by
  intro x y n s hfit
  have hlen : (Memory.readBytes s.mem s.i.toNat n.toNat).length ≤ 15 := by
    rw [Memory.readBytes_length]
    omega
  have hhit := drawSprite_hit s.fb (s.getV x).toNat (s.getV y).toNat hlen
  refine ⟨_, exec_drwVxVyN_draws x y (hfit.imp_left (congrArg BitVec.toNat)),
    ⟨drawSprite_pixel s.fb _ _ hlen, fun hcollides => ?_, fun hoff => ?_⟩,
    fun z => drawAt_getV_other s x y _, drawAt_frame .., fun _ => rfl⟩
  · exact (drawAt_getV_vf ..).trans (if_pos (hhit.mpr hcollides))
  · have hno := mt hhit.mp fun ⟨px, py, hc, hon⟩ => Bool.false_ne_true ((hoff px py hc).symm.trans hon)
    exact (drawAt_getV_vf ..).trans (if_neg hno)

/-- Settles O23: CLS installs the blank screen. -/
theorem clearScreen : Obligations.ClearScreen := fun s =>
  ⟨s.setFb Screen.blank, rfl, Screen.pixel_blank, rfl, fun _ => rfl⟩

/-- Settles O27: 5 times a byte fits in I. -/
theorem fontAddress : Obligations.FontAddress := fun x s =>
  ⟨s.setI (glyphAddress (s.getV x)), rfl, glyphAddress_toNat (s.getV x), rfl, fun _ => rfl⟩

/-! ## Accesses outside memory -/

/-- An instruction whose check is of bytes that reach outside memory raises MEM_RANGE (R17, R222, R223). -/
theorem raisesMemRange_of_rangeCheck {i : Instr} {s : State} {base len : Nat}
    (hc : instrCheck i s = rangeCheck base len) (h0 : len ≠ 0) (h : 4096 < base + len) :
    raisesMemRange i s base len (exec i s) := by
  have hx := exec_followsCheck i s
  rw [hc, rangeCheck_raised h0 h] at hx
  exact ⟨_, _, hx, ⟨raise_frame .., fun _ => rfl⟩, lowestOutside_max h0 h, raise_fault ..⟩

/-- Settles O36: each of the three instructions checks exactly the bytes it accesses. -/
theorem accessOutsideMemoryRaises : Obligations.AccessOutsideMemoryRaises := by
  refine fun x y n s => ⟨fun hn hout => ?_, fun hout => ⟨?_, ?_⟩⟩
  · have h0 : n.toNat ≠ 0 := fun h => hn (BitVec.eq_of_toNat_eq h)
    exact raisesMemRange_of_rangeCheck rfl h0 hout
  · exact raisesMemRange_of_rangeCheck rfl (Nat.succ_ne_zero _) (Nat.lt_succ_of_le hout)
  · exact raisesMemRange_of_rangeCheck rfl (Nat.succ_ne_zero _) (Nat.lt_succ_of_le hout)

end Sys2Proof.Machine

/-! PROOFS. Keyboard (43_keyboard.md): SKP and SKNP as skips on the key a register names, and the key wait from the step
that begins it to the key_down that ends it. -/

namespace Sys2Proof.Machine

/-! ## The key skips -/

theorem keyIndex_ok {b : Byte} (h : b.toNat ≤ 15) : keyIndex b = .ok (b.setWidth 4) := if_neg (Nat.not_lt.mpr h)

theorem keyIndex_raised {b : Byte} (h : 15 < b.toNat) : keyIndex b = .raised .keyRange (.key b) := if_pos h

/-- The key a byte of at most 15 names is the key of that number. -/
theorem State.getKey_setWidth (s : State) {b : Byte} (h : b.toNat ≤ 15) :
    s.getKey (b.setWidth 4) = s.keys[b.toNat]?.getD false := by
  have hlt : b.toNat < 16 := Nat.lt_succ_of_le h
  have hk : (b.setWidth 4).toNat = b.toNat := (BitVec.toNat_setWidth ..).trans (Nat.mod_eq_of_lt hlt)
  simp only [State.getKey, hk, Vector.getElem?_eq_getElem hlt, Option.getD_some]

/-- The skip on the opposite condition. -/
theorem skipIf_not_pc_toNat (c : Bool) (s : State) :
    (skipIf (!c) s).pc.toNat = (s.pc.toNat + if c then 0 else 2) % 65536 := by
  rw [skipIf_pc_toNat]
  cases c <;> rfl

section
variable {x : Nibble} {s : State}

/-- SKP on a register that names a key (R170). -/
theorem exec_skpVx_of_key (h : (s.getV x).toNat ≤ 15) :
    exec (.skpVx x) s = .next (skipIf (s.keys[(s.getV x).toNat]?.getD false) s) := by
  rw [exec, execSkpVx, keyIndex_ok h, attempt_ok, State.getKey_setWidth s h]

/-- SKNP on a register that names a key (R171). -/
theorem exec_sknpVx_of_key (h : (s.getV x).toNat ≤ 15) :
    exec (.sknpVx x) s = .next (skipIf (!s.keys[(s.getV x).toNat]?.getD false) s) := by
  rw [exec, execSknpVx, keyIndex_ok h, attempt_ok, State.getKey_setWidth s h]

/-- SKP on a register that names no key (R170, D11). -/
theorem exec_skpVx_of_noKey (h : 15 < (s.getV x).toNat) :
    exec (.skpVx x) s = .next (raise s .keyRange (some s.pc) (some (encode (.skpVx x))) (.key (s.getV x))) := by
  rw [exec, execSkpVx, keyIndex_raised h, attempt_raised]

/-- SKNP on a register that names no key (R171, D11). -/
theorem exec_sknpVx_of_noKey (h : 15 < (s.getV x).toNat) :
    exec (.sknpVx x) s = .next (raise s .keyRange (some s.pc) (some (encode (.sknpVx x))) (.key (s.getV x))) := by
  rw [exec, execSknpVx, keyIndex_raised h, attempt_raised]

end

/-- Settles O28: both check the register first, and then skip on the two opposite states of the key it names. -/
theorem keySkipsOrRaise : Obligations.KeySkipsOrRaise := by
  refine fun x s => ⟨fun hkey => ?_, fun hno => ⟨exec_skpVx_of_noKey hno, exec_sknpVx_of_noKey hno⟩⟩
  exact ⟨_, _, exec_skpVx_of_key hkey, exec_sknpVx_of_key hkey, skipIf_pc_toNat .., skipIf_not_pc_toNat ..,
    onlyPc_skipIf .., onlyPc_skipIf ..⟩

/-! ## The key wait -/

/-- LD Vx, K is the write of the wait (R172). -/
theorem exec_ldVxK (x : Nibble) (s : State) : exec (.ldVxK x) s = .next (s.setWait (some x)) := rfl

/-- Settles O29: a write of the wait is all LD Vx, K does. -/
theorem keyWaitBegins : Obligations.KeyWaitBegins := fun x s =>
  ⟨s.setWait (some x), exec_ldVxK x s, rfl, rfl, fun _ => rfl⟩

/-- The enabled step that runs LD Vx, K advances PC and begins the wait (R86, R172). -/
theorem step_of_ldVxK {x : Nibble} {s : State} {w : Word} (h : s.enabled) (hf : fetch s = .ok w)
    (hw : decode w = .ldVxK x) : step s = .next ((advance s).setWait (some x)) := by
  have hfault : ((advance s).setWait (some x)).fault = none := h.1
  rw [step_of_fetch_ok h hf, hw, exec_ldVxK, settle_of_no_fault hfault]

/-- The timers are frozen in a key wait (R174, R230). -/
theorem tick_of_wait {s : State} {x : Nibble} (h : s.wait = some x) : tick s = s := by
  rw [tick, h, Option.isSome_some, Bool.true_or, if_pos rfl]

/-- No release of a key begins or ends a wait (R173). -/
theorem releaseKey_wait (k : Nibble) (s : State) : (releaseKey k s).wait = s.wait := by
  unfold releaseKey
  split <;> rfl

/-- A press in a key wait: the key, its code in V[x], and the end of the wait (R173). -/
theorem pressKey_of_wait (k : Nibble) {s : State} {x : Nibble} (hf : s.fault = none) (hw : s.wait = some x) :
    pressKey k s = ((s.setKey k true).setV x (k.setWidth 8)).setWait none := by
  simp [pressKey, hf, hw]

/-- The number of a nibble is a legal key code (R234). -/
theorem withKeyCode_toNat (k : Nibble) (effect : Nibble → State) :
    withKeyCode k.toNat effect = .next (effect k, .nothing) := by
  have hk : k.toNat < Config.numKeys := k.isLt
  rw [withKeyCode, if_pos hk, BitVec.ofNat_toNat, BitVec.setWidth_eq]

theorem perform_keyUp_toNat (k : Nibble) (s : State) :
    perform (.keyUp k.toNat) s = .next (releaseKey k s, .nothing) :=
  withKeyCode_toNat k fun k => releaseKey k s

theorem perform_keyDown_toNat (k : Nibble) (s : State) :
    perform (.keyDown k.toNat) s = .next (pressKey k s, .nothing) :=
  withKeyCode_toNat k fun k => pressKey k s

theorem perform_tick_of_wait {s : State} {x : Nibble} (h : s.wait = some x) :
    perform .tick s = .next (s, .nothing) := by
  rw [perform, tick_of_wait h]

theorem perform_keyDown_of_wait (k : Nibble) {s : State} {x : Nibble} (hf : s.fault = none) (hw : s.wait = some x) :
    perform (.keyDown k.toNat) s = .next (((s.setKey k true).setV x (k.setWidth 8)).setWait none, .nothing) := by
  rw [perform_keyDown_toNat, pressKey_of_wait k hf hw]

/-- Settles O30: the step leaves the advanced state with the wait set to x; in it no step is enabled, and of the three
host events only key_down ends the wait. The wait was none before the step, so it is as it was in the end. -/
theorem keyWaitEndsWithOneKeyDown : Obligations.KeyWaitEndsWithOneKeyDown := by
  intro x k j s w hs hf hw
  have hfault : ((advance s).setWait (some x)).fault = none := hs.1
  refine ⟨(advance s).setWait (some x), releaseKey j ((advance s).setWait (some x)), _, step_of_ldVxK hs hf hw,
    rfl, rfl, step_of_wait hfault rfl, perform_tick_of_wait rfl, perform_keyUp_toNat j _, releaseKey_wait j _,
    perform_keyDown_of_wait k hfault rfl, ⟨hs.1, rfl⟩, rfl, ?_, fun z hz => ?_, ?_, fun z hz => ?_, ?_⟩
  · rw [State.setWait_getV, State.getV_setV_same]
    exact BitVec.toNat_setWidth_of_le (by decide)
  · exact State.getV_setV_other _ _ hz.symm
  · exact (State.getKey_setKey ..).trans (if_pos rfl)
  · exact (State.getKey_setKey ..).trans (if_neg hz.symm)
  · obtain ⟨-, hwait⟩ := hs
    cases s
    cases hwait
    rfl

end Sys2Proof.Machine

/-! PROOFS. Address register, timers, BCD and block transfers (44_timers_memory.md): the writes of one field, and the
instructions with one checked access at I, whose bytes are read back by their place from I. -/

namespace Sys2Proof.Machine

/-! ## Block transfers -/

/-- Byte z of a stored register block is V[z] (R196). -/
theorem read_writeBytes_firstRegs (m : Memory) (a : Nat) (s : State) {x z : Nibble} (h : z.toNat ≤ x.toNat) :
    Memory.read (Memory.writeBytes m a (firstRegs s x)) (a + z.toNat) = s.getV z := by
  have hlen : z.toNat < (firstRegs s x).length := by rw [firstRegs_length]; omega
  rw [Memory.read_writeBytes_inside m a hlen, firstRegs_getD s x z h]

/-- LD Vx, [I] with all its bytes in memory loads V0 to Vx from I (R197). -/
theorem exec_ldVxMem_loads {x : Nibble} {s : State} (h : s.i.toNat + x.toNat < 4096) :
    exec (.ldVxMem x) s
      = .next (s.setRegs (loadRegs s.v 0 (Memory.readBytes s.mem s.i.toNat (x.toNat + 1)))) := by
  have hfit : s.i.toNat + (x.toNat + 1) ≤ 4096 := h
  rw [exec, execLdVxMem, readRange_ok s.mem (.inr hfit), attempt_ok]

/-- A register after the load of n bytes from a: byte z of them among the first n registers, or as before. -/
theorem getV_setRegs_loadRegs_readBytes (s : State) (m : Memory) (a n : Nat) (z : Nibble) :
    (s.setRegs (loadRegs s.v 0 (Memory.readBytes m a n))).getV z
      = if z.toNat < n then Memory.read m (a + z.toNat) else s.getV z := by
  rw [State.getV, State.setRegs_v, loadRegs_getElem, Memory.readBytes_length]
  simp only [Nat.zero_le, true_and, Nat.zero_add, Nat.sub_zero]
  split
  · exact Memory.readBytes_getD m a n z.toNat ‹_›
  · rfl

theorem onlyRegs_setRegs (s : State) (v : Vector Byte 16) : onlyRegs s (s.setRegs v) := ⟨rfl, fun _ => rfl⟩

/-- Settles O35: the load reads back, byte by byte, the block the store wrote at the same I. -/
theorem blockLoadRestoresBlockStore : Obligations.BlockLoadRestoresBlockStore := by
  intro x s t u hfit hstore hmem hi
  rw [exec_ldMemVx_stores hfit] at hstore
  cases hstore
  rw [State.setMem_i] at hi
  have hload : u.i.toNat + x.toNat < 4096 := by rwa [hi]
  refine ⟨_, exec_ldVxMem_loads hload, fun z hz => ?_⟩
  rw [getV_setRegs_loadRegs_readBytes, if_pos (Nat.lt_succ_of_le hz), hmem, hi]
  exact read_writeBytes_firstRegs s.mem s.i.toNat s hz

/-- Settles O34: the store is one run of writes of V0 to Vx, the load one run of reads into them. -/
theorem registerBlockTransfers : Obligations.RegisterBlockTransfers := by
  intro x s hfit
  have hbytes := setMem_writeBytes_onlyBytes s s.i.toNat (firstRegs s x)
  rw [firstRegs_length] at hbytes
  refine ⟨_, _, exec_ldMemVx_stores hfit, exec_ldVxMem_loads hfit,
    fun z hz => read_writeBytes_firstRegs s.mem s.i.toNat s hz, hbytes, fun z hz => ?_, fun z hz => ?_,
    onlyRegs_setRegs s _⟩
  · rw [getV_setRegs_loadRegs_readBytes, if_pos (Nat.lt_succ_of_le hz)]
  · rw [getV_setRegs_loadRegs_readBytes, if_neg (Nat.not_lt.mpr hz)]

/-! ## Decimal digits -/

/-- LD B, Vx with all three bytes in memory stores the digits at I (R195). -/
theorem exec_ldBVx_stores {x : Nibble} {s : State} (h : s.i.toNat + 2 < 4096) :
    exec (.ldBVx x) s = .next (s.setMem (Memory.writeBytes s.mem s.i.toNat (decimalDigits (s.getV x)))) := by
  have hfit : s.i.toNat + (decimalDigits (s.getV x)).length ≤ 4096 := h
  rw [exec, execLdBVx, writeRange_ok s.mem (.inr hfit), attempt_ok]

/-- A number below 256 is that of its byte. -/
theorem byte_ofNat_toNat {k : Nat} (h : k < 256) : (BitVec.ofNat 8 k).toNat = k :=
  (BitVec.toNat_ofNat ..).trans (Nat.mod_eq_of_lt h)

/-- The stored digits read back as hundreds, tens and units (R195). -/
theorem read_writeBytes_decimalDigits (m : Memory) (a : Nat) (b : Byte) :
    (Memory.read (Memory.writeBytes m a (decimalDigits b)) a).toNat = b.toNat / 100
      ∧ (Memory.read (Memory.writeBytes m a (decimalDigits b)) (a + 1)).toNat = b.toNat / 10 % 10
      ∧ (Memory.read (Memory.writeBytes m a (decimalDigits b)) (a + 2)).toNat = b.toNat % 10 := by
  have hb : b.toNat < 256 := b.isLt
  have hread : ∀ j, j < 3 → Memory.read (Memory.writeBytes m a (decimalDigits b)) (a + j)
      = (decimalDigits b).getD j 0#8 := fun _ hj => Memory.read_writeBytes_inside m a hj
  refine ⟨?_, ?_, ?_⟩
  · exact (congrArg BitVec.toNat (hread 0 (by decide))).trans (byte_ofNat_toNat (by omega))
  · exact (congrArg BitVec.toNat (hread 1 (by decide))).trans (byte_ofNat_toNat (by omega))
  · exact (congrArg BitVec.toNat (hread 2 (by decide))).trans (byte_ofNat_toNat (by omega))

/-- Settles O33: the three digits are one run of writes, after the check of exactly those three bytes. -/
theorem decimalDigitsStored : Obligations.DecimalDigitsStored := by
  refine fun x s => ⟨fun hfit => ?_, fun hout => ?_⟩
  · obtain ⟨hhundreds, htens, hunits⟩ := read_writeBytes_decimalDigits s.mem s.i.toNat (s.getV x)
    exact ⟨_, exec_ldBVx_stores hfit, hhundreds, htens, hunits,
      setMem_writeBytes_onlyBytes s s.i.toNat (decimalDigits (s.getV x))⟩
  · exact raisesMemRange_of_rangeCheck rfl (by decide) (Nat.lt_succ_of_le hout)

/-! ## Address register and timers -/

/-- ADD I wraps modulo 2^16 (R194). -/
theorem add_byteWord_toNat (a : Word) (b : Byte) : (a + byteWord b).toNat = (a.toNat + b.toNat) % 65536 := by
  rw [BitVec.toNat_add, byteWord_toNat]

/-- Settles O31: both are a write of I. -/
theorem addressRegisterLoadAndAdd : Obligations.AddressRegisterLoadAndAdd := fun nnn x s =>
  ⟨s.setI (addrWord nnn), s.setI (s.i + byteWord (s.getV x)), rfl, rfl, addrWord_toNat nnn, add_byteWord_toNat .., rfl,
    rfl, fun _ => rfl, fun _ => rfl⟩

/-- Settles O32: a write of V[x], of DT and of ST. -/
theorem timerTransfers : Obligations.TimerTransfers := fun x s =>
  ⟨s.setV x s.dt, s.setDt (s.getV x), s.setSt (s.getV x), rfl, rfl, rfl, State.getV_setV_same ..,
    fun _ hz => State.getV_setV_other s s.dt hz.symm, onlyRegs_setV s x s.dt, rfl, rfl, fun _ => rfl, rfl, rfl,
    fun _ => rfl⟩

end Sys2Proof.Machine

/-! PROOFS. Which instructions raise which fault (60_exceptions.md R221): what an instruction raises is what its one
check raises, and each check has one kind of fault. -/

namespace Sys2Proof.Machine

theorem Access.check_eq_raised {α : Type} {a : Access α} {kind : Fault} {info : FaultInfo} :
    a.check = .raised kind info ↔ a = .raised kind info := by
  cases a <;> simp [Access.check, Access.map]

section
variable {kind : Fault} {info : FaultInfo}

theorem kind_of_rangeCheck_raised {base len : Nat} (h : rangeCheck base len = .raised kind info) : kind = .memRange := by
  rcases rangeCheck_cases base len with ⟨-, he⟩ | ⟨-, he⟩ <;> cases he.symm.trans h
  rfl

theorem kind_of_push_raised {s : State} {v : Word} (h : push s v = .raised kind info) : kind = .stackOverflow := by
  rcases push_cases s v with ⟨-, he⟩ | ⟨-, he⟩ | ⟨-, he⟩ <;> cases he.symm.trans h
  rfl

theorem kind_of_pop_raised {s : State} (h : pop s = .raised kind info) : kind = .stackUnderflow := by
  rcases pop_cases s with ⟨-, he⟩ | ⟨-, he⟩ | ⟨-, he⟩ <;> cases he.symm.trans h
  rfl

theorem kind_of_keyIndex_raised {b : Byte} (h : keyIndex b = .raised kind info) : kind = .keyRange := by
  rcases keyIndex_cases b with ⟨-, he⟩ | ⟨-, he⟩ <;> cases he.symm.trans h
  rfl

end

/-- Settles O44: the kind in the record is the one kind the instruction's check can raise. -/
theorem eachFaultHasItsInstructions : Obligations.EachFaultHasItsInstructions := by
  intro i s t r hs h hr
  obtain ⟨kind, info, hc, rfl⟩ := exec_raises hs h hr
  rw [raise_fault] at hr
  cases hr
  cases i with
  | drwVxVyN | ldBVx | ldMemVx | ldVxMem =>
    obtain rfl := kind_of_rangeCheck_raised hc
    exact .inl ⟨rfl, rfl, by simp⟩
  | call nnn =>
    obtain rfl := kind_of_push_raised (Access.check_eq_raised.mp hc)
    exact .inr (.inl ⟨rfl, rfl, nnn, rfl⟩)
  | ret =>
    obtain rfl := kind_of_pop_raised (Access.check_eq_raised.mp hc)
    exact .inr (.inr (.inl ⟨rfl, rfl, rfl⟩))
  | skpVx | sknpVx =>
    obtain rfl := kind_of_keyIndex_raised (Access.check_eq_raised.mp hc)
    exact .inr (.inr (.inr ⟨rfl, rfl, by simp⟩))
  | _ => cases hc

end Sys2Proof.Machine

/-! PROOFS. The operations of the host (60_exceptions.md): an equation per case for each of them, running, waiting and
faulted, and the statements read off those equations. -/

namespace Sys2Proof.Machine

/-! ## Each operation, case by case -/

section
variable {s : State} {r : FaultRecord}

theorem loadProgram_of_fault (bytes : List Byte) (h : s.fault = some r) : loadProgram bytes s = (s, .nothing) :=
  if_pos (h ▸ rfl)

theorem tick_of_enabled (h : s.enabled) : tick s = (s.setDt (timerAfterTick s.dt)).setSt (timerAfterTick s.st) := by
  obtain ⟨hfault, hwait⟩ := h
  rw [tick, hfault, hwait]
  rfl

theorem tick_of_not_enabled (h : ¬ s.enabled) : tick s = s := by
  refine if_pos ?_
  rw [Bool.or_eq_true, Option.isSome_iff_ne_none, Option.isSome_iff_ne_none]
  exact (not_and_or.mp h).symm

/-- A timer stops at 0 (R229, D12). -/
theorem timerAfterTick_toNat (b : Byte) : (timerAfterTick b).toNat = b.toNat - 1 := by
  unfold timerAfterTick
  split <;> bv_omega

theorem pressKey_of_fault (k : Nibble) (h : s.fault = some r) : pressKey k s = s := if_pos (h ▸ rfl)

theorem pressKey_of_enabled (k : Nibble) (h : s.enabled) : pressKey k s = s.setKey k true := by
  obtain ⟨hfault, hwait⟩ := h
  rw [pressKey, hfault, hwait]
  rfl

theorem releaseKey_of_fault (k : Nibble) (h : s.fault = some r) : releaseKey k s = s := if_pos (h ▸ rfl)

theorem releaseKey_of_no_fault (k : Nibble) (h : s.fault = none) : releaseKey k s = s.setKey k false := by
  rw [releaseKey, h]
  rfl

theorem perform_keyDown_of_lt {k : Nat} (h : k < 16) (s : State) :
    perform (.keyDown k) s = .next (pressKey (BitVec.ofNat 4 k) s, .nothing) := if_pos h

theorem perform_keyUp_of_lt {k : Nat} (h : k < 16) (s : State) :
    perform (.keyUp k) s = .next (releaseKey (BitVec.ofNat 4 k) s, .nothing) := if_pos h

/-- Neither key event takes a code above 15 (R234). -/
theorem perform_keyEvent_of_le {k : Nat} (h : 16 ≤ k) (s : State) :
    perform (.keyDown k) s = .refused .keyCodeOutOfRange ∧ perform (.keyUp k) s = .refused .keyCodeOutOfRange :=
  ⟨if_neg (Nat.not_lt.mpr h), if_neg (Nat.not_lt.mpr h)⟩

end

section
variable {s : State} {r : FaultRecord} {x y : Nat}

theorem onScreen_eq_true (hx : x < 64) (hy : y < 32) : onScreen x y = true :=
  Bool.and_eq_true_iff.mpr ⟨decide_eq_true hx, decide_eq_true hy⟩

theorem onScreen_eq_false : onScreen x y = false ↔ 64 ≤ x ∨ 32 ≤ y := by
  simp [onScreen, Config.screenW, Config.screenH, imp_iff_not_or]

theorem isSet_inside (s : State) (h : onScreen x y = true) :
    isSet x y s = .next (s, .pixel (s.fb.pixel (wrapX x) (wrapY y))) := if_pos h

theorem isSet_outside (h : onScreen x y = false) (hs : s.fault = none) :
    isSet x y s = .next (raiseScreenBounds x y s, .nothing) := by
  simp [isSet, h, hs]

theorem isSet_outside_of_fault (h : onScreen x y = false) (hs : s.fault = some r) :
    isSet x y s = .refused .haltedByFault := by
  simp [isSet, h, hs]

theorem writePixel_inside (on : Bool) (h : onScreen x y = true) (hs : s.fault = none) :
    writePixel x y on s = s.setFb (s.fb.setPixel (wrapX x) (wrapY y) on) := by
  simp [writePixel, h, hs]

theorem writePixel_outside (on : Bool) (h : onScreen x y = false) (hs : s.fault = none) :
    writePixel x y on s = raiseScreenBounds x y s := by
  simp [writePixel, h, hs]

theorem writePixel_of_fault (on : Bool) (hs : s.fault = some r) : writePixel x y on s = s := if_pos (hs ▸ rfl)

end

/-! ## What every operation keeps -/

theorem inv_initialized (s : State) : (initialized s).Inv := ⟨Memory.wf_reset, Nat.zero_le _, nofun⟩

theorem inv_raiseScreenBounds {s : State} {x y : Nat} (hs : s.Inv) (h : onScreen x y = false) :
    (raiseScreenBounds x y s).Inv :=
  inv_setFault hs (by simpa [FaultRecord.wf, Config.screenW, Config.screenH] using onScreen_eq_false.mp h)

theorem loadProgram_keeps_inv {s : State} (bytes : List Byte) (hs : s.Inv) : (loadProgram bytes s).1.Inv := by
  obtain h | ⟨hfit, h⟩ := loadProgram_cases bytes s
  · rwa [h]
  · rw [h]
    exact ⟨Memory.wf_writeBytes bytes hs.memory (.inr hfit), hs.stackPointer, hs.faultRecord⟩

theorem tick_keeps_inv {s : State} (hs : s.Inv) : (tick s).Inv := by
  by_cases h : s.enabled
  · rw [tick_of_enabled h]
    exact ⟨hs.memory, hs.stackPointer, hs.faultRecord⟩
  · rwa [tick_of_not_enabled h]

theorem pressKey_keeps_inv {s : State} (k : Nibble) (hs : s.Inv) : (pressKey k s).Inv := by
  cases hfault : s.fault with
  | some r => rwa [pressKey_of_fault k hfault]
  | none =>
    cases hwait : s.wait with
    | some x =>
      rw [pressKey_of_wait k hfault hwait]
      exact ⟨hs.memory, hs.stackPointer, hs.faultRecord⟩
    | none =>
      rw [pressKey_of_enabled k ⟨hfault, hwait⟩]
      exact ⟨hs.memory, hs.stackPointer, hs.faultRecord⟩

theorem releaseKey_keeps_inv {s : State} (k : Nibble) (hs : s.Inv) : (releaseKey k s).Inv := by
  cases hfault : s.fault with
  | some r => rwa [releaseKey_of_fault k hfault]
  | none =>
    rw [releaseKey_of_no_fault k hfault]
    exact ⟨hs.memory, hs.stackPointer, hs.faultRecord⟩

theorem withKeyCode_keeps {P : State → Prop} {k : Nat} {effect : Nibble → State} {t : State} {a : Answer}
    (keeps : ∀ k, P (effect k)) (h : withKeyCode k effect = .next (t, a)) : P t := by
  obtain ⟨-, he⟩ | ⟨-, he⟩ := withKeyCode_cases k effect <;> cases he.symm.trans h
  exact keeps _

theorem isSet_keeps_inv {s t : State} {x y : Nat} {a : Answer} (hs : s.Inv) (h : isSet x y s = .next (t, a)) :
    t.Inv := by
  cases hscreen : onScreen x y with
  | true => cases (isSet_inside s hscreen).symm.trans h; exact hs
  | false =>
    cases hfault : s.fault with
    | some r => cases (isSet_outside_of_fault hscreen hfault).symm.trans h
    | none => cases (isSet_outside hscreen hfault).symm.trans h; exact inv_raiseScreenBounds hs hscreen

theorem writePixel_keeps_inv {s : State} (x y : Nat) (on : Bool) (hs : s.Inv) : (writePixel x y on s).Inv := by
  cases hfault : s.fault with
  | some r => rwa [writePixel_of_fault on hfault]
  | none =>
    cases hscreen : onScreen x y with
    | true =>
      rw [writePixel_inside on hscreen hfault]
      exact ⟨hs.memory, hs.stackPointer, hs.faultRecord⟩
    | false =>
      rw [writePixel_outside on hscreen hfault]
      exact inv_raiseScreenBounds hs hscreen

/-- An operation that answers nothing is the instruction transition it stands for. -/
theorem withoutAnswer_next {o : Host.Outcome State Fault Refusal} {t : State} {a : Answer}
    (h : withoutAnswer o = .next (t, a)) : o = .next t := by
  cases o <;> cases h
  rfl

/-- Each of the sixteen operations keeps the invariant (R232). -/
theorem perform_keeps_inv (op : HostOp) (s t : State) (a : Answer) (hs : s.Inv) (h : perform op s = .next (t, a)) :
    t.Inv := by
  cases op with
  | initializeCore => cases h; exact inv_initialized s
  | load bytes =>
    obtain rfl : (loadProgram bytes s).1 = t := congrArg Prod.fst (Host.Outcome.next.inj h)
    exact loadProgram_keeps_inv bytes hs
  | step => exact stepKeepsTheInvariant s t hs (withoutAnswer_next h)
  | execute w => exact exec_keeps_inv hs (execute_next (withoutAnswer_next h)).2
  | tick => cases h; exact tick_keeps_inv hs
  | keyDown k => exact withKeyCode_keeps (fun k => pressKey_keeps_inv k hs) h
  | keyUp k => exact withKeyCode_keeps (fun k => releaseKey_keeps_inv k hs) h
  | setMapping m => cases h; exact ⟨hs.memory, hs.stackPointer, hs.faultRecord⟩
  | isSet x y => exact isSet_keeps_inv hs h
  | setOn x y => cases h; exact writePixel_keeps_inv x y true hs
  | setOff x y => cases h; exact writePixel_keeps_inv x y false hs
  | map | timers | sound | waiting | fault => cases h; exact hs

/-- Settles O59: every operation keeps the invariant, so by induction over the run every sequence of them does. -/
theorem everyHostOperationKeepsTheInvariant : Obligations.EveryHostOperationKeepsTheInvariant :=
  ⟨perform_keeps_inv, fun _ _ hs h => reaches_keeps perform_keeps_inv hs h⟩

/-! ## After a fault -/

/-- With a fault recorded, no operation but the reset (R260) and `set_mapping` leads to another state (R224). -/
theorem perform_frozen_of_fault {op : HostOp} {s t : State} {a : Answer} {r : FaultRecord} (hr : s.fault = some r)
    (h : perform op s = .next (t, a)) : op = .initializeCore ∨ (∃ m, op = .setMapping m) ∨ t = s := by
  cases op with
  | initializeCore => exact .inl rfl
  | setMapping m => exact .inr (.inl ⟨m, rfl⟩)
  | load bytes =>
    rw [perform, loadProgram_of_fault bytes hr] at h
    cases h
    exact .inr (.inr rfl)
  | step => cases (step_of_fault hr).symm.trans (withoutAnswer_next h)
  | execute w => cases (execute_of_fault w hr).symm.trans (withoutAnswer_next h)
  | tick =>
    cases h
    exact .inr (.inr (tick_of_not_enabled fun he => nomatch he.1.symm.trans hr))
  | keyDown k => exact .inr (.inr (withKeyCode_keeps (P := (· = s)) (fun k => pressKey_of_fault k hr) h))
  | keyUp k => exact .inr (.inr (withKeyCode_keeps (P := (· = s)) (fun k => releaseKey_of_fault k hr) h))
  | isSet x y =>
    cases hscreen : onScreen x y with
    | true => cases (isSet_inside s hscreen).symm.trans h; exact .inr (.inr rfl)
    | false => cases (isSet_outside_of_fault hscreen hr).symm.trans h
  | setOn x y => cases h; exact .inr (.inr (writePixel_of_fault true hr))
  | setOff x y => cases h; exact .inr (.inr (writePixel_of_fault false hr))
  | map | timers | sound | waiting | fault => cases h; exact .inr (.inr rfl)

/-- Settles O56: the frame of a faulted machine, and the answers of `load` and the key events on it. -/
theorem faultedMachineIsFrozen : Obligations.FaultedMachineIsFrozen := by
  refine ⟨fun op s t a hs h => ?_, fun k bytes s hs => ?_⟩
  · obtain ⟨r, hr⟩ := Option.ne_none_iff_exists'.mp hs
    exact perform_frozen_of_fault hr h
  · obtain ⟨r, hr⟩ := Option.ne_none_iff_exists'.mp hs
    refine ⟨⟨.nothing, by rw [perform, loadProgram_of_fault bytes hr]⟩, fun hk => ⟨?_, ?_⟩⟩
    · rw [perform_keyDown_of_lt hk, pressKey_of_fault _ hr]
    · rw [perform_keyUp_of_lt hk, releaseKey_of_fault _ hr]

/-! ## Ticks and the read ports -/

/-- Settles O51: a tick of an enabled core writes both timers, and a read port pairs its answer with the state as it
is. -/
theorem tickCountsDownAndPortsShowIt : Obligations.TickCountsDownAndPortsShowIt := by
  refine ⟨fun s hs => ?_, fun s => ?_⟩
  · refine ⟨(s.setDt (timerAfterTick s.dt)).setSt (timerAfterTick s.st), ?_, timerAfterTick_toNat s.dt,
      timerAfterTick_toNat s.st, rfl⟩
    rw [perform, tick_of_enabled hs]
  · exact ⟨soundLevel s, s.wait.isSome, rfl, rfl, decide_eq_true_iff, rfl, Option.isSome_iff_ne_none, rfl⟩

/-- Settles O52: in such a state the core is not enabled. -/
theorem tickFrozenWhileWaitingOrFaulted : Obligations.TickFrozenWhileWaitingOrFaulted := by
  intro s hs
  rw [perform, tick_of_not_enabled (not_and_or.mpr hs.symm)]

/-! ## Key events -/

theorem State.getKey_setKey_same (s : State) (k : Nibble) (d : Bool) : (s.setKey k d).getKey k = d :=
  (State.getKey_setKey ..).trans (if_pos rfl)

theorem State.getKey_setKey_other (s : State) {k z : Nibble} (d : Bool) (h : k ≠ z) :
    (s.setKey k d).getKey z = s.getKey z :=
  (State.getKey_setKey ..).trans (if_neg h)

/-- Settles O53: both are the write of one key, after the check of the code. -/
theorem keyEventsWriteTheirKey : Obligations.KeyEventsWriteTheirKey := by
  refine fun k s => ⟨fun hk hs => ⟨fun hw => ?_, ?_⟩, fun hk => perform_keyEvent_of_le hk s⟩
  · refine ⟨s.setKey (BitVec.ofNat 4 k) true, ?_, State.getKey_setKey_same .., fun z hz => ?_, rfl⟩
    · rw [perform_keyDown_of_lt hk, pressKey_of_enabled _ ⟨hs, hw⟩]
    · exact State.getKey_setKey_other s true hz.symm
  · refine ⟨s.setKey (BitVec.ofNat 4 k) false, ?_, State.getKey_setKey_same .., fun z hz => ?_, rfl⟩
    · rw [perform_keyUp_of_lt hk, releaseKey_of_no_fault _ hs]
    · exact State.getKey_setKey_other s false hz.symm

/-! ## The key mapping -/

/-- A host key the table does not name is not mapped (R235). -/
theorem mapKey_of_not_mem {t : KeyMap} {h : Nat} (hh : h ∉ t.map Prod.fst) : mapKey t h = none := by
  induction t with
  | nil => rfl
  | cons c t ih =>
    obtain ⟨hhead, htail⟩ := not_or.mp (mt List.mem_cons.mpr hh)
    rw [mapKey, if_neg (Ne.symm hhead), ih htail]

/-- A table that names no host key twice maps each of its keys to the code beside it (R235). -/
theorem mapKey_of_mem {t : KeyMap} {h : Nat} {k : Nibble} (hmem : (h, k) ∈ t) (hnodup : (t.map Prod.fst).Nodup) :
    mapKey t h = some k := by
  induction t with
  | nil => cases hmem
  | cons c t ih =>
    obtain ⟨hhead, htail⟩ := List.nodup_cons.mp hnodup
    rcases List.mem_cons.mp hmem with rfl | hmem
    · rw [mapKey, if_pos rfl]
    · have hne : c.1 ≠ h := fun e => hhead (e ▸ List.mem_map_of_mem hmem)
      rw [mapKey, if_neg hne, ih hmem htail]

/-- Settles O54: `map` reads the table `set_mapping` installed. -/
theorem mappingIsInstalledAndQueried : Obligations.MappingIsInstalledAndQueried := by
  refine fun t h k s => ⟨s.setKeymap t, rfl, rfl, fun hmem hnodup => ?_, fun hno => ?_⟩
  · rw [perform, State.setKeymap_keymap, mapKey_of_mem hmem hnodup]
  · rw [perform, State.setKeymap_keymap, mapKey_of_not_mem hno]

/-! ## The pixel ports -/

theorem wrapX_of_lt {x : Nat} (h : x < 64) : wrapX x = ⟨x, h⟩ := Fin.ext (Nat.mod_eq_of_lt h)

theorem wrapY_of_lt {y : Nat} (h : y < 32) : wrapY y = ⟨y, h⟩ := Fin.ext (Nat.mod_eq_of_lt h)

/-- A pixel after the write of the pixel with these coordinates. -/
theorem Screen.pixel_setPixel_wrap (fb : Screen) {x y : Nat} (hx : x < 64) (hy : y < 32) (on : Bool) (px : Fin 64)
    (py : Fin 32) : (fb.setPixel (wrapX x) (wrapY y) on).pixel px py
      = if px.val = x ∧ py.val = y then on else fb.pixel px py := by
  rw [Screen.pixel_setPixel, wrapX_of_lt hx, wrapY_of_lt hy]
  simp only [Fin.ext_iff]

/-- Settles O55: the four cases of the pixel ports, inside and outside the screen, with and without a fault. -/
theorem screenPortsAreBoundsChecked : Obligations.ScreenPortsAreBoundsChecked := by
  refine fun x y s => ⟨fun hx hy => ?_, fun hout hs => ?_, fun hout hs => ?_, fun hs => ?_⟩
  · have hin := onScreen_eq_true hx hy
    refine ⟨by rw [perform, isSet_inside s hin, wrapX_of_lt hx, wrapY_of_lt hy], fun hs => ?_⟩
    refine ⟨s.setFb (s.fb.setPixel (wrapX x) (wrapY y) true), s.setFb (s.fb.setPixel (wrapX x) (wrapY y) false), ?_, ?_,
      Screen.pixel_setPixel_wrap s.fb hx hy true, Screen.pixel_setPixel_wrap s.fb hx hy false, rfl, rfl⟩
    · rw [perform, writePixel_inside true hin hs]
    · rw [perform, writePixel_inside false hin hs]
  · have hoff := onScreen_eq_false.mpr hout
    refine ⟨raiseScreenBounds x y s, rfl, rfl, isSet_outside hoff hs, ?_, ?_⟩
    · rw [perform, writePixel_outside true hoff hs]
    · rw [perform, writePixel_outside false hoff hs]
  · obtain ⟨r, hr⟩ := Option.ne_none_iff_exists'.mp hs
    exact isSet_outside_of_fault (onScreen_eq_false.mpr hout) hr
  · obtain ⟨r, hr⟩ := Option.ne_none_iff_exists'.mp hs
    exact ⟨by rw [perform, writePixel_of_fault true hr], by rw [perform, writePixel_of_fault false hr]⟩

end Sys2Proof.Machine

/-! PROOFS. Reset and boot (70_reset_and_hazards.md): what the state after `initialize` reads as, the invariants it meets,
and the first fetch after a load. -/

namespace Sys2Proof.Machine

/-! ## The reset state and initialize -/

@[simp] theorem State.reset_getV (z : Nibble) : State.reset.getV z = 0#8 := Vector.getElem_replicate _

@[simp] theorem State.reset_getKey (k : Nibble) : State.reset.getKey k = false := Vector.getElem_replicate _

/-- Every slot is 0; an index off the stack reads as 0 too. -/
@[simp] theorem State.reset_stackSlot (j : Nat) : State.reset.stackSlot j = 0#16 := by
  simp only [State.stackSlot, State.reset, Vector.getElem?_replicate]
  split <;> rfl

/-- Above the 80 font bytes the reset image is 0 (R260). -/
theorem resetByte_of_le {a : Nat} (h : 80 ≤ a) : resetByte a = 0#8 := List.getD_eq_default _ _ h

section
variable (s : State)

@[simp] theorem initialized_pc : (initialized s).pc = 0x200#16 := rfl

@[simp] theorem initialized_mem : (initialized s).mem = State.reset.mem := rfl

/-- No fault and no wait outlives `initialize`. -/
theorem initialized_enabled : (initialized s).enabled := ⟨rfl, rfl⟩

end

/-- A read of the reset memory is a read of the reset image, since nothing is listed (log entry 5). -/
@[simp] theorem Memory.read_reset (a : Nat) : Memory.read State.reset.mem a = resetByte a := rfl

/-- Settles O48: every element is read off the reset state, which `initialize` installs around the old KEYMAP; the glyphs
are a closed fact about the reset memory. -/
theorem initializeResetsEverythingButTheMapping : Obligations.InitializeResetsEverythingButTheMapping := by
  refine fun s => ⟨initialized s, rfl, State.reset_getV, rfl, rfl, rfl, fun j _ _ => State.reset_stackSlot j, rfl, rfl,
    Screen.pixel_blank, State.reset_getKey, rfl, rfl, rfl, ?_⟩
  rw [initialized_mem]
  exact ⟨fun a ha => (Memory.read_reset a).trans (resetByte_of_le ha), by decide⟩

/-- Settles O57: `initialize` gives the invariant, and the bounds hold of PC 0x200 and of slots that are all 0. -/
theorem resetMeetsTheInvariants : Obligations.ResetMeetsTheInvariants := by
  refine ⟨inv_initialized State.reset, ⟨by decide, fun j _ _ => ?_⟩, rfl⟩
  rw [State.reset_stackSlot]
  decide

/-! ## Boot -/

/-- The word at the start of a run of writes is its first two bytes (R63). -/
theorem readWord_writeBytes_pair (m : Memory) (a : Nat) (hi lo : Byte) (rest : List Byte) :
    readWord (Memory.writeBytes m a (hi :: lo :: rest)) a = hi ++ lo := by
  have hlen : 1 < (hi :: lo :: rest).length := by simp
  have hhigh : Memory.read (Memory.writeBytes m a (hi :: lo :: rest)) a = hi :=
    Memory.read_writeBytes_inside m a (Nat.zero_lt_of_lt hlen)
  have hlow : Memory.read (Memory.writeBytes m a (hi :: lo :: rest)) (a + 1) = lo :=
    Memory.read_writeBytes_inside m a hlen
  rw [readWord, hhigh, hlow, wordOfBytes]

/-- With PC at the load offset the fetch after a load gives the program's first word. -/
theorem fetch_setMem_writeBytes_program {s : State} (hpc : s.pc = 0x200#16) (hi lo : Byte) (rest : List Byte) :
    fetch (s.setMem (Memory.writeBytes s.mem 0x200 (hi :: lo :: rest))) = .ok (hi ++ lo) := by
  have hpc' : s.pc.toNat = 0x200 := congrArg BitVec.toNat hpc
  rw [fetch_ok (by rw [State.setMem_pc]; omega), State.setMem_mem, State.setMem_pc, hpc', readWord_writeBytes_pair]

/-- Settles O50: the initialized machine is enabled with PC at the load offset, the load leaves both so, and the step runs
the word it fetches there. -/
theorem bootRunsTheFirstWord : Obligations.BootRunsTheFirstWord := by
  intro s hi lo rest hfit
  have henabled := initialized_enabled s
  have hload := loadProgram_fits (bytes := hi :: lo :: rest) henabled.1 hfit
  have hfetch := fetch_setMem_writeBytes_program (initialized_pc s) hi lo rest
  exact ⟨initialized s, _, rfl, congrArg Host.Outcome.next hload, step_of_fetch_ok henabled hfetch⟩

end Sys2Proof.Machine

/-! PROOFS. The decoder and the encoder are inverse to each other on the well-formed instructions (R83), and both agree
with the masks and matches of the opcode table (30_encoding.md section 3). -/

namespace Sys2Proof

/-! ## A word from its fields, some of them known -/

theorem wordN_of_opField {w : Word} {op : Nibble} (hop : opField w = op) : wordN op (nnnField w) = w := by
  rw [← hop, wordN_of_fields]

theorem wordXKK_of_opField {w : Word} {op : Nibble} (hop : opField w = op) :
    wordXKK op (xField w) (kkField w) = w := by
  rw [← hop, wordXKK_of_fields]

theorem wordXYN_of_opField {w : Word} {op : Nibble} (hop : opField w = op) :
    wordXYN op (xField w) (yField w) (nField w) = w := by
  rw [← hop, wordXYN_of_fields]

theorem wordXKK_of_opField_kkField {w : Word} {op : Nibble} {kk : Byte} (hop : opField w = op) (hkk : kkField w = kk) :
    wordXKK op (xField w) kk = w := by
  rw [← hkk, wordXKK_of_opField hop]

theorem wordXYN_of_opField_nField {w : Word} {op n : Nibble} (hop : opField w = op) (hn : nField w = n) :
    wordXYN op (xField w) (yField w) n = w := by
  rw [← hn, wordXYN_of_opField hop]

/-! ## The words of NOP (R84) -/

/-- The well-formedness check of NOP, in terms of the fields the decoder reads. -/
theorem isUnmatchedWord_iff (w : Word) : isUnmatchedWord w = true ↔
    (opField w = 0x8#4 ∧ nField w ∈ [0x8#4, 0x9#4, 0xA#4, 0xB#4, 0xC#4, 0xD#4, 0xF#4])
      ∨ (opField w = 0xE#4 ∧ kkField w ∉ [0x9E#8, 0xA1#8])
      ∨ (opField w = 0xF#4
        ∧ kkField w ∉ [0x07#8, 0x0A#8, 0x15#8, 0x18#8, 0x1E#8, 0x29#8, 0x33#8, 0x55#8, 0x65#8]) := by
  simp [isUnmatchedWord, opField, nField, kkField, or_assoc, and_assoc]

/-- A low nibble that is none of the nine sub-opcodes of family 8 is one of the seven unused ones (D6). -/
theorem unused_nibble_of_not_subcode (n : Nibble) :
    n ∉ [0x0#4, 0x1#4, 0x2#4, 0x3#4, 0x4#4, 0x5#4, 0x6#4, 0x7#4, 0xE#4] →
      n ∈ [0x8#4, 0x9#4, 0xA#4, 0xB#4, 0xC#4, 0xD#4, 0xF#4] := by
  revert n
  decide

theorem decode_of_isUnmatchedWord {w : Word} (h : isUnmatchedWord w = true) : decode w = .nop w := by
  rcases (isUnmatchedWord_iff w).mp h with ⟨hop, hn⟩ | ⟨hop, hkk⟩ | ⟨hop, hkk⟩
  · rw [decode_of_family8 hop, decodeFamily8_nop hn]
  · rw [decode_of_familyE hop, decodeFamilyE_nop hkk]
  · rw [decode_of_familyF hop, decodeFamilyF_nop hkk]

/-! ## Decoding an encoding -/

/-- The word of a well-formed SYS is neither that of CLS nor that of RET. -/
theorem decode_wordN_sys {nnn : Addr} (h : (Instr.sys nnn).wf = true) : decode (wordN 0x0 nnn) = .sys nnn := by
  obtain ⟨hop, hnnn⟩ := wordN_fields 0x0 nnn
  simp only [Instr.wf, Bool.and_eq_true, bne_iff_ne] at h
  have hcls : wordN 0x0 nnn ≠ 0x00E0#16 := fun he => h.1 (wordN_inj (op' := 0x0) (nnn' := 0x0E0#12) he).2
  have hret : wordN 0x0 nnn ≠ 0x00EE#16 := fun he => h.2 (wordN_inj (op' := 0x0) (nnn' := 0x0EE#12) he).2
  rw [decode_of_family0 hop, decodeFamily0_sys hcls hret, hnnn]

theorem decode_encode {i : Instr} (h : i.wf = true) : decode (encode i) = i := by
  cases i with
  | cls | ret => rfl
  | sys nnn => exact decode_wordN_sys h
  | nop w => exact decode_of_isUnmatchedWord h
  | jp | call | ldINnn | jpV0Nnn => simp [encode, decode, wordN_fields]
  | seVxKk | sneVxKk | ldVxKk | addVxKk | rndVxKk => simp [encode, decode, wordXKK_fields]
  | seVxVy | sneVxVy | drwVxVyN => simp [encode, decode, wordXYN_fields]
  | ldVxVy | orVxVy | andVxVy | xorVxVy | addVxVy | subVxVy | shrVx | subnVxVy | shlVx =>
    simp [encode, decode, decodeFamily8, wordXYN_fields]
  | skpVx | sknpVx => simp [encode, decode, decodeFamilyE, wordXKK_fields]
  | ldVxDt | ldVxK | ldDtVx | ldStVx | addIVx | ldFVx | ldBVx | ldMemVx | ldVxMem =>
    simp [encode, decode, decodeFamilyF, wordXKK_fields]

/-- Settles O2: by cases on the format the instruction is encoded in; the bytes are those of the same word. -/
theorem decodeOfEncodeIsTheInstruction : Obligations.DecodeOfEncodeIsTheInstruction := by
  intro i hwf
  refine ⟨decode_encode hwf, ?_⟩
  rw [encodeBytes, decodeBytes_pair, wordOfBytes_bytes, decode_encode hwf]

/-! ## Encoding what was decoded -/

/-- Instruction i is well-formed and w is its word. -/
def Instr.HasWord (i : Instr) (w : Word) : Prop := i.wf = true ∧ encode i = w

theorem nop_hasWord {w : Word} (h : isUnmatchedWord w = true) : (Instr.nop w).HasWord w := ⟨h, rfl⟩

/-- One test of the decoder: both answers have the word. -/
theorem ite_hasWord {c : Prop} [Decidable c] {i j : Instr} {w : Word} (hi : c → i.HasWord w)
    (hj : ¬c → j.HasWord w) : (if c then i else j).HasWord w :=
  iteInduction (motive := fun k => Instr.HasWord k w) hi hj

/-- The SYS word of family 0: CLS and RET have been ruled out, so its address is neither of theirs. -/
theorem sys_hasWord {w : Word} (hop : opField w = 0x0#4) (hcls : w ≠ 0x00E0#16) (hret : w ≠ 0x00EE#16) :
    (Instr.sys (nnnField w)).HasWord w := by
  have hw : wordN 0x0 (nnnField w) = w := wordN_of_opField hop
  have hne {nnn : Addr} (h : w ≠ wordN 0x0 nnn) : nnnField w ≠ nnn := fun he => h (he ▸ hw.symm)
  exact ⟨by simpa [Instr.wf] using And.intro (hne (nnn := 0x0E0#12) hcls) (hne (nnn := 0x0EE#12) hret), hw⟩

theorem decodeFamily0_hasWord {w : Word} (hop : opField w = 0x0#4) : (decodeFamily0 w).HasWord w := by
  rw [decodeFamily0]
  refine ite_hasWord (fun hcls => ⟨rfl, hcls.symm⟩) fun hcls => ?_
  exact ite_hasWord (fun hret => ⟨rfl, hret.symm⟩) fun hret => sys_hasWord hop hcls hret

theorem decodeFamily8_hasWord {w : Word} (hop : opField w = 0x8#4) : (decodeFamily8 w).HasWord w := by
  rw [decodeFamily8]
  iterate 9 refine ite_hasWord (fun hn => ⟨rfl, wordXYN_of_opField_nField hop hn⟩) fun _ => ?_
  have hn := unused_nibble_of_not_subcode (nField w) (by simp [*])
  exact nop_hasWord ((isUnmatchedWord_iff w).mpr (.inl ⟨hop, hn⟩))

theorem decodeFamilyE_hasWord {w : Word} (hop : opField w = 0xE#4) : (decodeFamilyE w).HasWord w := by
  rw [decodeFamilyE]
  iterate 2 refine ite_hasWord (fun hkk => ⟨rfl, wordXKK_of_opField_kkField hop hkk⟩) fun _ => ?_
  exact nop_hasWord ((isUnmatchedWord_iff w).mpr (.inr (.inl ⟨hop, by simp [*]⟩)))

theorem decodeFamilyF_hasWord {w : Word} (hop : opField w = 0xF#4) : (decodeFamilyF w).HasWord w := by
  rw [decodeFamilyF]
  iterate 9 refine ite_hasWord (fun hkk => ⟨rfl, wordXKK_of_opField_kkField hop hkk⟩) fun _ => ?_
  exact nop_hasWord ((isUnmatchedWord_iff w).mpr (.inr (.inr ⟨hop, by simp [*]⟩)))

/-- The last family is the one left when the others are ruled out. -/
theorem nibble_eq_F (a : Nibble) : a ∉ [0x0#4, 0x1#4, 0x2#4, 0x3#4, 0x4#4, 0x5#4, 0x6#4, 0x7#4, 0x8#4, 0x9#4, 0xA#4,
    0xB#4, 0xC#4, 0xD#4, 0xE#4] → a = 0xF#4 := by
  revert a
  decide

/-- The decoder's tests of op, in their order. -/
theorem decode_hasWord (w : Word) : (decode w).HasWord w := by
  rw [decode]
  refine ite_hasWord decodeFamily0_hasWord fun _ => ?_
  refine ite_hasWord (fun h1 => ⟨rfl, wordN_of_opField h1⟩) fun _ => ?_
  refine ite_hasWord (fun h2 => ⟨rfl, wordN_of_opField h2⟩) fun _ => ?_
  refine ite_hasWord (fun h3 => ⟨rfl, wordXKK_of_opField h3⟩) fun _ => ?_
  refine ite_hasWord (fun h4 => ⟨rfl, wordXKK_of_opField h4⟩) fun _ => ?_
  refine ite_hasWord (fun h5 => ⟨rfl, wordXYN_of_opField h5⟩) fun _ => ?_
  refine ite_hasWord (fun h6 => ⟨rfl, wordXKK_of_opField h6⟩) fun _ => ?_
  refine ite_hasWord (fun h7 => ⟨rfl, wordXKK_of_opField h7⟩) fun _ => ?_
  refine ite_hasWord decodeFamily8_hasWord fun _ => ?_
  refine ite_hasWord (fun h9 => ⟨rfl, wordXYN_of_opField h9⟩) fun _ => ?_
  refine ite_hasWord (fun hA => ⟨rfl, wordN_of_opField hA⟩) fun _ => ?_
  refine ite_hasWord (fun hB => ⟨rfl, wordN_of_opField hB⟩) fun _ => ?_
  refine ite_hasWord (fun hC => ⟨rfl, wordXKK_of_opField hC⟩) fun _ => ?_
  refine ite_hasWord (fun hD => ⟨rfl, wordXYN_of_opField hD⟩) fun _ => ?_
  refine ite_hasWord decodeFamilyE_hasWord fun _ => decodeFamilyF_hasWord (nibble_eq_F _ ?_)
  simp [*]

/-- Settles O3: family by family, a word is put together again from the fields its instruction keeps. -/
theorem everyWordIsTheEncodingOfItsInstruction : Obligations.EveryWordIsTheEncodingOfItsInstruction := decode_hasWord

/-! ## The opcode table -/

open Laws.RowWord in
/-- The laws of the family RowWord, gathered for every instruction. -/
theorem rowWord_statement : ∀ i : Instr, Statement i
  | .cls => cls | .ret => ret | .sys nnn => sys nnn | .jp nnn => jp nnn | .call nnn => call nnn
  | .seVxKk x kk => seVxKk x kk | .sneVxKk x kk => sneVxKk x kk | .seVxVy x y n => seVxVy x y n
  | .ldVxKk x kk => ldVxKk x kk | .addVxKk x kk => addVxKk x kk | .ldVxVy x y => ldVxVy x y
  | .orVxVy x y => orVxVy x y | .andVxVy x y => andVxVy x y | .xorVxVy x y => xorVxVy x y
  | .addVxVy x y => addVxVy x y | .subVxVy x y => subVxVy x y | .shrVx x y => shrVx x y
  | .subnVxVy x y => subnVxVy x y | .shlVx x y => shlVx x y | .sneVxVy x y n => sneVxVy x y n
  | .ldINnn nnn => ldINnn nnn | .jpV0Nnn nnn => jpV0Nnn nnn | .rndVxKk x kk => rndVxKk x kk
  | .drwVxVyN x y n => drwVxVyN x y n | .skpVx x => skpVx x | .sknpVx x => sknpVx x | .ldVxDt x => ldVxDt x
  | .ldVxK x => ldVxK x | .ldDtVx x => ldDtVx x | .ldStVx x => ldStVx x | .addIVx x => addIVx x | .ldFVx x => ldFVx x
  | .ldBVx x => ldBVx x | .ldMemVx x => ldMemVx x | .ldVxMem x => ldVxMem x | .nop w => nop w

/-! A field that the mask keeps whole is the same in the word and in the match. -/

theorem opField_of_and_eq {w mask value : Word} (h : w &&& mask = value) (hmask : opField mask = 0xF#4) :
    opField w = value.extractLsb' 12 4 := by
  have hand : (w &&& mask).extractLsb' 12 4 = opField w &&& opField mask := BitVec.extractLsb'_and
  rw [← h, hand, hmask, Laws.RowWord.nibble_and_F]

theorem nField_of_and_eq {w mask value : Word} (h : w &&& mask = value) (hmask : nField mask = 0xF#4) :
    nField w = value.extractLsb' 0 4 := by
  have hand : (w &&& mask).extractLsb' 0 4 = nField w &&& nField mask := BitVec.extractLsb'_and
  rw [← h, hand, hmask, Laws.RowWord.nibble_and_F]

theorem kkField_of_and_eq {w mask value : Word} (h : w &&& mask = value) (hmask : kkField mask = 0xFF#8) :
    kkField w = value.extractLsb' 0 8 := by
  have hand : (w &&& mask).extractLsb' 0 8 = kkField w &&& kkField mask := BitVec.extractLsb'_and
  rw [← h, hand, hmask, Laws.RowWord.byte_and_FF]

/-- Two instructions stand in the same row of the opcode table. -/
def Instr.SameRow (i j : Instr) : Prop := i.rowMask = j.rowMask ∧ i.rowMatch = j.rowMatch

theorem decode_sameRow {w : Word} {i : Instr} (hrow : i.rowMask ≠ 0x0000#16) (hmatch : w &&& i.rowMask = i.rowMatch)
    (hsys : (w ≠ 0x00E0#16 ∧ w ≠ 0x00EE#16) ∨ i.rowMask ≠ 0xF000#16) : (decode w).SameRow i := by
  cases i with
  | nop => exact absurd rfl hrow
  | cls | ret =>
    have hw := BitVec.and_allOnes.symm.trans hmatch
    rw [hw]
    exact ⟨rfl, rfl⟩
  | sys nnn =>
    obtain ⟨hcls, hret⟩ := hsys.resolve_right (· rfl)
    have hop : opField w = 0x0#4 := opField_of_and_eq (mask := 0xF000#16) (value := 0x0000#16) hmatch (by decide)
    rw [decode_of_family0 hop, decodeFamily0_sys hcls hret]
    exact ⟨rfl, rfl⟩
  | jp | call | ldINnn | jpV0Nnn | seVxKk | sneVxKk | ldVxKk | addVxKk | rndVxKk | seVxVy | sneVxVy | drwVxVyN =>
    have hop := opField_of_and_eq (mask := 0xF000#16) hmatch (by decide)
    simp [Instr.SameRow, decode, hop, Instr.rowMask, Instr.rowMatch]
  | ldVxVy | orVxVy | andVxVy | xorVxVy | addVxVy | subVxVy | shrVx | subnVxVy | shlVx =>
    have hop := opField_of_and_eq (mask := 0xF00F#16) hmatch (by decide)
    have hn := nField_of_and_eq (mask := 0xF00F#16) hmatch (by decide)
    simp [Instr.SameRow, decode, decodeFamily8, hop, hn, Instr.rowMask, Instr.rowMatch]
  | skpVx | sknpVx =>
    have hop := opField_of_and_eq (mask := 0xF0FF#16) hmatch (by decide)
    have hkk := kkField_of_and_eq (mask := 0xF0FF#16) hmatch (by decide)
    simp [Instr.SameRow, decode, decodeFamilyE, hop, hkk, Instr.rowMask, Instr.rowMatch]
  | ldVxDt | ldVxK | ldDtVx | ldStVx | addIVx | ldFVx | ldBVx | ldMemVx | ldVxMem =>
    have hop := opField_of_and_eq (mask := 0xF0FF#16) hmatch (by decide)
    have hkk := kkField_of_and_eq (mask := 0xF0FF#16) hmatch (by decide)
    simp [Instr.SameRow, decode, decodeFamilyF, hop, hkk, Instr.rowMask, Instr.rowMatch]

/-- Settles O4: a word is the encoding of its instruction, which matches its own row; the other way the bits a mask
keeps are the fields the decoder tests. -/
theorem decoderAgreesWithTheOpcodeTable : Obligations.DecoderAgreesWithTheOpcodeTable := by
  refine ⟨fun w => ?_, fun w i _ hrow hmatch => ⟨?_, ?_, decode_sameRow hrow hmatch⟩⟩
  · obtain ⟨hwf, hw⟩ := decode_hasWord w
    have h := rowWord_statement (decode w) hwf
    rwa [hw] at h
  · rintro rfl -
    rfl
  · rintro rfl -
    rfl

/-! ## Fixed words, and ignored fields -/

/-- Settles O1: the fifteen words are decoded. -/
theorem wordsOfTheOpcodeMapDecode : Obligations.WordsOfTheOpcodeMapDecode := by
  unfold Obligations.WordsOfTheOpcodeMapDecode
  decide

/-- Settles O5: the four instructions with an ignored field have arms of `exec` that do not name it; any other is its
own canonical form. -/
theorem ignoredFieldsHaveNoEffect : Obligations.IgnoredFieldsHaveNoEffect := by
  intro i s
  cases i with
  | seVxVy | sneVxVy | shrVx | shlVx => rfl
  | _ => rfl

end Sys2Proof
